-- ==== Sys2Proof/Word.lean ====
section
/-! DEFINITION. The word types of the machine (spec/00_scope.md R9, R14; spec/30_encoding.md R51).

Every value of this machine is unsigned; there is no sign extension anywhere (R14, R52). A memory address is
computed on the natural numbers ("on the integers with no wrap", spec/43_index_memory.md, Addressing), so the key
of a memory cell is a plain `Nat`. -/

namespace Sys2Proof

/-- A 4-bit field of an instruction word: a register index `x` or `y`, a sprite height `n`, or an opcode nibble
(R51). -/
abbrev Nibble := BitVec 4

/-- A byte: a general register, a timer, a memory cell, an immediate `nn` (R9, R16, R51). -/
abbrev Byte := BitVec 8

/-- A 12-bit address immediate `nnn` (R51). -/
abbrev Addr12 := BitVec 12

/-- 16 bits: an instruction word, the index register, the program counter, a stack entry (R9, R50). -/
abbrev Word := BitVec 16

end Sys2Proof
end

