-- ==== Sys2Proof/Syntax.lean ====
section
/-! DEFINITION. The instructions: one constructor for each of the 34 rows of spec/opcode_table.json
(spec/00_scope.md R1; spec/30_encoding.md section 4). -/

namespace Sys2Proof

/-- The instructions of the opcode map. The operands have exactly the widths of the fields of R51. -/
inductive Instr where
  /-- 00E0, R105 -/
  | cls
  /-- 00EE, R76 -/
  | ret
  /-- 1nnn, R77 -/
  | jp (nnn : Addr12)
  /-- 2nnn, R78 -/
  | call (nnn : Addr12)
  /-- 3xnn, R79 -/
  | seImm (x : Nibble) (nn : Byte)
  /-- 4xnn, R80 -/
  | sneImm (x : Nibble) (nn : Byte)
  /-- 5xy0, R81 -/
  | seReg (x y : Nibble)
  /-- 6xnn, R87 -/
  | ldImm (x : Nibble) (nn : Byte)
  /-- 7xnn, R88 -/
  | addImm (x : Nibble) (nn : Byte)
  /-- 8xy0, R89 -/
  | ldReg (x y : Nibble)
  /-- 8xy1, R90 -/
  | orReg (x y : Nibble)
  /-- 8xy2, R91 -/
  | andReg (x y : Nibble)
  /-- 8xy3, R92 -/
  | xorReg (x y : Nibble)
  /-- 8xy4, R93 -/
  | addReg (x y : Nibble)
  /-- 8xy5, R94 -/
  | subReg (x y : Nibble)
  /-- 8xy6, R95: the y field is decoded and ignored -/
  | shr (x y : Nibble)
  /-- 8xy7, R96 -/
  | subnReg (x y : Nibble)
  /-- 8xyE, R97: the y field is decoded and ignored -/
  | shl (x y : Nibble)
  /-- 9xy0, R82 -/
  | sneReg (x y : Nibble)
  /-- Annn, R99 -/
  | ldI (nnn : Addr12)
  /-- Bnnn, R83 -/
  | jpV0 (nnn : Addr12)
  /-- Cxnn, R98 -/
  | rnd (x : Nibble) (nn : Byte)
  /-- Dxyn, R106 -/
  | drw (x y n : Nibble)
  /-- Ex9E, R117 -/
  | skp (x : Nibble)
  /-- ExA1, R118 -/
  | sknp (x : Nibble)
  /-- Fx07, R119 -/
  | ldVxDt (x : Nibble)
  /-- Fx0A, R120 -/
  | ldVxK (x : Nibble)
  /-- Fx15, R121 -/
  | ldDtVx (x : Nibble)
  /-- Fx18, R122 -/
  | ldStVx (x : Nibble)
  /-- Fx1E, R100 -/
  | addIVx (x : Nibble)
  /-- Fx29, R101 -/
  | ldFVx (x : Nibble)
  /-- Fx33, R102 -/
  | ldBVx (x : Nibble)
  /-- Fx55, R103 -/
  | stRegs (x : Nibble)
  /-- Fx65, R104 -/
  | ldRegs (x : Nibble)
  deriving DecidableEq, Repr

end Sys2Proof
end

