-- ==== Sys2Proof/Decode.lean ====
section
/-! DEFINITION. Decoding and encoding (spec/30_encoding.md R50 to R60). The decoder is total on all 65536 words
(R53); a word that no row of the opcode map matches is rejected by name as an unknown opcode (R59). -/

namespace Sys2Proof

/-- Why a decode gives no instruction. -/
inductive DecodeReject where
  /-- No row of the opcode map matches the word (R59). -/
  | unknownOpcode (w : Word)
  /-- Fewer than two bytes were given: an instruction is one 16-bit word (R50). -/
  | truncated
  deriving DecidableEq, Repr

/-- The instruction word at two bytes, the first at the lower address: big-endian (R35, R50, R64). -/
def wordOfBytes (hi lo : Byte) : Word := hi ++ lo

/-- `op = w[15:12]`, the family (R51, R53). -/
def fieldOp (w : Word) : Nibble := w.extractLsb' 12 4

/-- `x = w[11:8]` (R51). -/
def fieldX (w : Word) : Nibble := w.extractLsb' 8 4

/-- `y = w[7:4]` (R51). -/
def fieldY (w : Word) : Nibble := w.extractLsb' 4 4

/-- `n = w[3:0]` (R51). -/
def fieldN (w : Word) : Nibble := w.extractLsb' 0 4

/-- `nn = w[7:0]` (R51). -/
def fieldNn (w : Word) : Byte := w.extractLsb' 0 8

/-- `nnn = w[11:0]` (R51). -/
def fieldNnn (w : Word) : Addr12 := w.extractLsb' 0 12

/-- Family 0 holds exactly the two full words 0x00E0 and 0x00EE (R54). -/
def decodeFamily0 (w : Word) : Except DecodeReject Instr :=
  match (fieldNnn w).toNat with
  | 0x0E0 => .ok .cls
  | 0x0EE => .ok .ret
  | _ => .error (.unknownOpcode w)

/-- Family 5: the low nibble is fixed at 0 (R55). -/
def decodeFamily5 (w : Word) : Except DecodeReject Instr :=
  match (fieldN w).toNat with
  | 0x0 => .ok (.seReg (fieldX w) (fieldY w))
  | _ => .error (.unknownOpcode w)

/-- Family 8 dispatches on n (R56). -/
def decodeFamily8 (w : Word) : Except DecodeReject Instr :=
  match (fieldN w).toNat with
  | 0x0 => .ok (.ldReg (fieldX w) (fieldY w))
  | 0x1 => .ok (.orReg (fieldX w) (fieldY w))
  | 0x2 => .ok (.andReg (fieldX w) (fieldY w))
  | 0x3 => .ok (.xorReg (fieldX w) (fieldY w))
  | 0x4 => .ok (.addReg (fieldX w) (fieldY w))
  | 0x5 => .ok (.subReg (fieldX w) (fieldY w))
  | 0x6 => .ok (.shr (fieldX w) (fieldY w))
  | 0x7 => .ok (.subnReg (fieldX w) (fieldY w))
  | 0xE => .ok (.shl (fieldX w) (fieldY w))
  | _ => .error (.unknownOpcode w)

/-- Family 9: the low nibble is fixed at 0 (R55). -/
def decodeFamily9 (w : Word) : Except DecodeReject Instr :=
  match (fieldN w).toNat with
  | 0x0 => .ok (.sneReg (fieldX w) (fieldY w))
  | _ => .error (.unknownOpcode w)

/-- Family E dispatches on nn (R57). -/
def decodeFamilyE (w : Word) : Except DecodeReject Instr :=
  match (fieldNn w).toNat with
  | 0x9E => .ok (.skp (fieldX w))
  | 0xA1 => .ok (.sknp (fieldX w))
  | _ => .error (.unknownOpcode w)

/-- Family F dispatches on nn (R58). -/
def decodeFamilyF (w : Word) : Except DecodeReject Instr :=
  match (fieldNn w).toNat with
  | 0x07 => .ok (.ldVxDt (fieldX w))
  | 0x0A => .ok (.ldVxK (fieldX w))
  | 0x15 => .ok (.ldDtVx (fieldX w))
  | 0x18 => .ok (.ldStVx (fieldX w))
  | 0x1E => .ok (.addIVx (fieldX w))
  | 0x29 => .ok (.ldFVx (fieldX w))
  | 0x33 => .ok (.ldBVx (fieldX w))
  | 0x55 => .ok (.stRegs (fieldX w))
  | 0x65 => .ok (.ldRegs (fieldX w))
  | _ => .error (.unknownOpcode w)

/-- Decode one instruction word: the high nibble selects the family, and families 0, 5, 8, 9, E and F dispatch further
(R53 to R59). -/
def decode (w : Word) : Except DecodeReject Instr :=
  match (fieldOp w).toNat with
  | 0x0 => decodeFamily0 w
  | 0x1 => .ok (.jp (fieldNnn w))
  | 0x2 => .ok (.call (fieldNnn w))
  | 0x3 => .ok (.seImm (fieldX w) (fieldNn w))
  | 0x4 => .ok (.sneImm (fieldX w) (fieldNn w))
  | 0x5 => decodeFamily5 w
  | 0x6 => .ok (.ldImm (fieldX w) (fieldNn w))
  | 0x7 => .ok (.addImm (fieldX w) (fieldNn w))
  | 0x8 => decodeFamily8 w
  | 0x9 => decodeFamily9 w
  | 0xA => .ok (.ldI (fieldNnn w))
  | 0xB => .ok (.jpV0 (fieldNnn w))
  | 0xC => .ok (.rnd (fieldX w) (fieldNn w))
  | 0xD => .ok (.drw (fieldX w) (fieldY w) (fieldN w))
  | 0xE => decodeFamilyE w
  | 0xF => decodeFamilyF w
  | _ => .error (.unknownOpcode w)

/-- Decode the first instruction of any list of bytes, and give back the rest of the list (R50, R53). -/
def decodeBytes : List Byte → Except DecodeReject (Instr × List Byte)
  | hi :: lo :: rest =>
    match decode (wordOfBytes hi lo) with
    | .ok i => .ok (i, rest)
    | .error e => .error e
  | _ => .error .truncated

/-- The layout `op, nnn` (R51). -/
def packNnn (op : Nibble) (nnn : Addr12) : Word := op ++ nnn

/-- The layout `op, x, nn` (R51). -/
def packXNn (op x : Nibble) (nn : Byte) : Word := op ++ x ++ nn

/-- The layout `op, x, y, n` (R51). -/
def packXYN (op x y n : Nibble) : Word := op ++ x ++ y ++ n

/-- The word of an instruction, from the patterns of the opcode map (spec/30_encoding.md section 4). -/
def encode : Instr → Word
  | .cls => 0x00E0#16
  | .ret => 0x00EE#16
  | .jp nnn => packNnn 0x1#4 nnn
  | .call nnn => packNnn 0x2#4 nnn
  | .seImm x nn => packXNn 0x3#4 x nn
  | .sneImm x nn => packXNn 0x4#4 x nn
  | .seReg x y => packXYN 0x5#4 x y 0x0#4
  | .ldImm x nn => packXNn 0x6#4 x nn
  | .addImm x nn => packXNn 0x7#4 x nn
  | .ldReg x y => packXYN 0x8#4 x y 0x0#4
  | .orReg x y => packXYN 0x8#4 x y 0x1#4
  | .andReg x y => packXYN 0x8#4 x y 0x2#4
  | .xorReg x y => packXYN 0x8#4 x y 0x3#4
  | .addReg x y => packXYN 0x8#4 x y 0x4#4
  | .subReg x y => packXYN 0x8#4 x y 0x5#4
  | .shr x y => packXYN 0x8#4 x y 0x6#4
  | .subnReg x y => packXYN 0x8#4 x y 0x7#4
  | .shl x y => packXYN 0x8#4 x y 0xE#4
  | .sneReg x y => packXYN 0x9#4 x y 0x0#4
  | .ldI nnn => packNnn 0xA#4 nnn
  | .jpV0 nnn => packNnn 0xB#4 nnn
  | .rnd x nn => packXNn 0xC#4 x nn
  | .drw x y n => packXYN 0xD#4 x y n
  | .skp x => packXNn 0xE#4 x 0x9E#8
  | .sknp x => packXNn 0xE#4 x 0xA1#8
  | .ldVxDt x => packXNn 0xF#4 x 0x07#8
  | .ldVxK x => packXNn 0xF#4 x 0x0A#8
  | .ldDtVx x => packXNn 0xF#4 x 0x15#8
  | .ldStVx x => packXNn 0xF#4 x 0x18#8
  | .addIVx x => packXNn 0xF#4 x 0x1E#8
  | .ldFVx x => packXNn 0xF#4 x 0x29#8
  | .ldBVx x => packXNn 0xF#4 x 0x33#8
  | .stRegs x => packXNn 0xF#4 x 0x55#8
  | .ldRegs x => packXNn 0xF#4 x 0x65#8

/-- The two bytes of an instruction whose bits are `w`, numbered as spec/opcode_table.json numbers them, with every bit
from `nbits` on 0: the high byte at the lower address (R35). -/
def tableWordBytes (nbits w : Nat) : List Byte :=
  let v := w % 2 ^ nbits
  [BitVec.ofNat 8 (v / 256), BitVec.ofNat 8 v]

/-- The instruction the decoder reads from the word `w` of the opcode table. -/
def decodeTableWord (nbits w : Nat) : Option Instr :=
  match decodeBytes (tableWordBytes nbits w) with
  | .ok (i, _) => some i
  | .error _ => none

end Sys2Proof
end

