-- ==== Sys2Proof/Config.lean ====
section
/-! DEFINITION. The constants of the hardware (spec/00_scope.md R2 to R8), its three open parameters as plain data
(R10, R12, R13), and the one free value of the model, the draw of Cxnn (R11).

The open parameters are "named parameters, which the model takes as an argument" (spec/92_eei_decisions.md). The
step function has one argument, the state, so the parameters stand in the state, in a field no step and no host call
changes (notes/assumptions/1.md, DESIGN CHOICE, safe): a statement about every state is a statement about every
value of the parameters. -/

namespace Sys2Proof

/-- The values of `P_ALU_SELFREF` (R13, R86): the order of the flag write and the result write in 8xy4, 8xy5, 8xy6,
8xy7 and 8xyE. -/
inductive AluSelfRef where
  /-- `SEQ_FLAG_FIRST`, the spec's default: VF is written first, the result is computed from the registers as they
  then stand. -/
  | seqFlagFirst
  /-- `LATCHED_FLAG_LAST`: both operands are read once, the result is written first and VF last. -/
  | latchedFlagLast
  deriving DecidableEq, Repr

/-- The parameters of the block that the spec leaves open, fixed for one instance of it. -/
structure Config where
  /-- `P_FONT`, the 80 font bytes (R10, R26). -/
  font : Vector Byte 80
  /-- `P_ROM_END_CHECK` (R12, R63). -/
  romEndCheck : Bool
  /-- `P_ALU_SELFREF` (R13, R86). -/
  aluSelfRef : AluSelfRef
  deriving DecidableEq, Repr

namespace Config

/-- `MEM_SIZE` (R2). -/
@[simp] abbrev memSize : Nat := 4096

/-- `PROGRAM_START` (R3). -/
@[simp] abbrev programStart : Nat := 0x200

/-- `MAX_ROM = MEM_SIZE - PROGRAM_START` (R3). -/
@[simp] abbrev maxRom : Nat := memSize - programStart

/-- `FONT_BASE` (R4). -/
@[simp] abbrev fontBase : Nat := 0x050

/-- `FONT_LEN` (R4). -/
@[simp] abbrev fontLen : Nat := 80

/-- `GLYPH_BYTES` (R4). -/
@[simp] abbrev glyphBytes : Nat := 5

/-- `DISPLAY_W` (R5). -/
@[simp] abbrev displayW : Nat := 64

/-- `DISPLAY_H` (R5). -/
@[simp] abbrev displayH : Nat := 32

/-- `NUM_KEYS` (R6). -/
@[simp] abbrev numKeys : Nat := 16

/-- `STACK_DEPTH` (R8). -/
@[simp] abbrev stackDepth : Nat := 16

/-- The index of VF, the flag register (R17). -/
abbrev vf : Nibble := 0xF#4

/-- The conventional CHIP-8 font, the spec's default of `P_FONT`, glyph by glyph (R26; the spec marks the bytes as
general knowledge: notes/assumptions/2.md). -/
def conventionalFont : Vector Byte 80 := #v[
  0xF0#8, 0x90#8, 0x90#8, 0x90#8, 0xF0#8,
  0x20#8, 0x60#8, 0x20#8, 0x20#8, 0x70#8,
  0xF0#8, 0x10#8, 0xF0#8, 0x80#8, 0xF0#8,
  0xF0#8, 0x10#8, 0xF0#8, 0x10#8, 0xF0#8,
  0x90#8, 0x90#8, 0xF0#8, 0x10#8, 0x10#8,
  0xF0#8, 0x80#8, 0xF0#8, 0x10#8, 0xF0#8,
  0xF0#8, 0x80#8, 0xF0#8, 0x90#8, 0xF0#8,
  0xF0#8, 0x10#8, 0x20#8, 0x40#8, 0x40#8,
  0xF0#8, 0x90#8, 0xF0#8, 0x90#8, 0xF0#8,
  0xF0#8, 0x90#8, 0xF0#8, 0x10#8, 0xF0#8,
  0xF0#8, 0x90#8, 0xF0#8, 0x90#8, 0x90#8,
  0xE0#8, 0x90#8, 0xE0#8, 0x90#8, 0xE0#8,
  0xF0#8, 0x80#8, 0x80#8, 0x80#8, 0xF0#8,
  0xE0#8, 0x90#8, 0x90#8, 0x90#8, 0xE0#8,
  0xF0#8, 0x80#8, 0xF0#8, 0x80#8, 0xF0#8,
  0xF0#8, 0x80#8, 0xF0#8, 0x80#8, 0x80#8]

/-- The spec's defaults of the three parameters (R10, R12, R13; notes/assumptions/2.md). -/
def specDefault : Config where
  font := conventionalFont
  romEndCheck := false
  aluSelfRef := .seqFlagFirst

/-- THE FREE VALUE of the model: the draw that the `k`-th executed Cxnn takes, "under no law (no distribution, no
seed, no relation between successive draws)" (R11, R98). It has no body, so nothing can be proved of a value of it
(notes/assumptions/3.md). -/
opaque rndDraw : Nat → Byte

end Config

end Sys2Proof
end

