-- ==== Sys2Proof/Machine/State.lean ====
section
/-! DEFINITION. The state of the block as plain data (spec/10_state.md), the kinds of conditions a cycle reports
(spec/40_cycle.md R68, spec/60_exceptions.md R124), and the state after construction (R32, R141). -/

namespace Sys2Proof.Machine

/-- The fatal-for-the-cycle conditions (R68, R124). They are no fault of the model: the spec gives the state after
each of them (R69, R128), so each is a next state that records it. -/
inductive FatalKind where
  /-- `pc + 1 > 4095` at fetch (R62). -/
  | fetchOutOfRange
  /-- `pc >= 0x200 + L` at fetch, only when `P_ROM_END_CHECK` is true (R63). -/
  | fetchPastRom
  /-- 2nnn with SP = 16 (R78). -/
  | stackOverflow
  /-- 00EE with SP = 0 (R76). -/
  | stackUnderflow
  /-- Fx55 or Fx65 with I + x > 4095 (R103, R104). -/
  | blockTransferOutOfRange
  deriving DecidableEq, Repr

/-- The locally recovered conditions (R68, R70, R124). -/
inductive Diag where
  /-- A word no row of the opcode map matches (R59). -/
  | unknownOpcode
  /-- Fx29 with V[x] >= 16 (R101). -/
  | fontDigitOutOfRange
  /-- Fx1E with I + V[x] > 4095 (R100). -/
  | indexOverflow
  deriving DecidableEq, Repr

/-- What a cycle that has a next state reported to its caller (R68). -/
inductive CycleOutcome where
  /-- `Ok(diags)`: completed, with the locally recovered conditions noted. -/
  | ok (diags : List Diag)
  /-- `Fatal(kind)`. -/
  | fatal (kind : FatalKind)
  deriving DecidableEq, Repr

/-- The cycle ended `Fatal`. -/
def CycleOutcome.isFatal : CycleOutcome → Bool
  | .ok _ => false
  | .fatal _ => true

/-- THE FAULTS: the `Undefined(kind)` outcomes of R68, for which the spec demands a model fault with no next state and
no substituted value (R71, spec/92_eei_decisions.md D27). Each is SAFE: the model stops where the hardware may go on. -/
inductive Fault where
  /-- Raised by DRW (Dxyn) when a row to be drawn would read an address above 4095 (R115). Safe. -/
  | spriteReadOutOfRange
  /-- Raised by LD B, Vx (Fx33) when I + 2 > 4095 (R102). Safe. -/
  | bcdWriteOutOfRange
  /-- Raised by SKP and SKNP (Ex9E, ExA1) when V[x] >= 16 (R117, R118). Safe. -/
  | keyIndexOutOfRange
  deriving DecidableEq, Repr

/-- THE REFUSALS. -/
inductive Refusal where
  /-- Raised by no instruction of this model: every arm of `exec` has its meaning. It is the form of an instruction
  without one. Safe. -/
  | notModelled (mnemonic : String)
  deriving DecidableEq, Repr

/-- Memory: the cells that differ from the reset contents, addresses strictly rising (R15; the canonical form is
`Mem.wf` in Sys2Proof/Machine/Ops.lean). -/
abbrev Mem := List Host.Cell

/-- The whole state of the block (R15 to R28, R31), then the model's own fields. -/
structure State where
  /-- `mem`: 4096 bytes (R15), as the cells that differ from the reset contents. -/
  mem : Mem
  /-- `V`: V0 to VF (R16, R17). -/
  regs : Vector Byte 16
  /-- `I`, 16 bits, always in 0..4095 (R18, R19). -/
  i : Word
  /-- `pc`, 16 bits (R20, R21). -/
  pc : Word
  /-- `S[0..15]`, the return addresses (R22). -/
  stack : Vector Word 16
  /-- `SP`, the depth, 0 to 16 (R22). -/
  sp : Fin 17
  /-- `DT`, the delay timer (R23). -/
  dt : Byte
  /-- `ST`, the sound timer (R23). -/
  st : Byte
  /-- `FB[c][r]`, 64 columns of 32 pixels (R24). -/
  fb : Vector (Vector Bool 32) 64
  /-- `K[k]`, true when pressed (R25). -/
  keys : Vector Bool 16
  /-- `L`, the loaded-ROM size in bytes (R27). -/
  romSize : Nat
  /-- `redraw`, the redraw-pending flag (R28). -/
  redraw : Bool
  /-- The MODEL's field: the parameters P_FONT, P_ROM_END_CHECK and P_ALU_SELFREF of this instance, which nothing
  changes (R10, R12, R13; notes/assumptions/1.md). -/
  config : Config
  /-- The MODEL's field: how many draws Cxnn has taken, so that each execution takes a fresh one (R11;
  notes/assumptions/3.md). -/
  draws : Nat
  /-- The MODEL's field: what the last cycle reported to the host (R68, R134; notes/assumptions/4.md). -/
  outcome : CycleOutcome
  /-- The MODEL's field: the sticky record of every fatal outcome, oldest first. DESIGN CHOICE: D2 asks for a record of
  every Fatal and Undefined outcome, while an Undefined one has no next state to hold a record (R71, D27), so an
  Undefined outcome is recorded as the step's `.fault`, and in a run as `RunStatus.undefined`, and not here
  (notes/assumptions/4.md). -/
  faults : List FatalKind
  deriving DecidableEq, Repr

/-- Construction of an instance with the parameters `c` (R32, R141): memory holds its reset contents (zero, and the
font copy), pc is 0x200, everything else is zero, clear or false. -/
def State.construct (c : Config) : State where
  mem := []
  regs := Vector.replicate 16 0#8
  i := 0#16
  pc := 0x200#16
  stack := Vector.replicate 16 0#16
  sp := 0
  dt := 0#8
  st := 0#8
  fb := Vector.replicate 64 (Vector.replicate 32 false)
  keys := Vector.replicate 16 false
  romSize := 0
  redraw := false
  config := c
  draws := 0
  outcome := .ok []
  faults := []

/-- The machine right after reset: construction (R32, R141) with the spec's default parameters (R10, R12, R13). -/
def State.reset : State := State.construct Config.specDefault

end Sys2Proof.Machine
end

