-- ==== Sys2Proof/Machine/Ops.lean ====
section
/-! DEFINITION. The named operations over memory, registers, stack, timers, framebuffer, keypad and reports; the
pieces of the cycle (fetch check, fetch, advance, timer tick, end of the cycle); and the ONE operation by which a fatal
condition ends a cycle. -/

namespace Sys2Proof.Machine

/-! ### Memory (spec/20_memory.md) -/

/-- What an address that the memory does not list reads as: the reset contents, the font copy at 0x050 to 0x09F and
zero elsewhere (R32, R39). -/
def resetByte (font : Vector Byte 80) (a : Nat) : Byte :=
  if h : Config.fontBase ≤ a ∧ a < Config.fontBase + Config.fontLen then
    font[a - Config.fontBase]'(by simp only [Config.fontBase, Config.fontLen] at *; omega)
  else 0#8

/-- The byte a memory lists at an address, if it lists one. -/
def Mem.find (a : Nat) : Mem → Option Byte
  | [] => none
  | (a', b') :: m => if a = a' then some b' else Mem.find a m

/-- List `ob` at address `a` (`none`: list nothing there), keeping the addresses strictly rising. -/
def Mem.put (a : Nat) (ob : Option Byte) : Mem → Mem
  | [] => ob.toList.map (fun b => (a, b))
  | (a', b') :: m =>
    if a < a' then ob.toList.map (fun b => (a, b)) ++ (a', b') :: m
    else if a = a' then ob.toList.map (fun b => (a, b)) ++ m
    else (a', b') :: Mem.put a ob m

/-- The canonical form of a memory over the reset contents `dflt`: addresses strictly rising and inside the address
space, and no cell equal to what an unlisted address reads as. -/
abbrev Mem.wf (dflt : Nat → Byte) (m : Mem) : Prop :=
  m.Pairwise (fun c c' => c.1 < c'.1) ∧ ∀ c ∈ m, c.1 < 4096 ∧ c.2 ≠ dflt c.1

/-- `MemRead(a, 1)` (R36); only ever called with `a` in 0 to 4095. -/
def State.readByte (s : State) (a : Nat) : Byte :=
  (s.mem.find a).getD (resetByte s.config.font a)

/-- `MemWrite(a, 1, b)` (R36); only ever called with `a` in 0 to 4095. Writing what an unlisted address reads as
removes the cell. -/
def State.writeByte (s : State) (a : Nat) (b : Byte) : State :=
  { s with mem := s.mem.put a (if b = resetByte s.config.font a then none else some b) }

/-- One-byte writes at ascending addresses from `a` (R37). -/
def State.writeBytes (s : State) (a : Nat) : List Byte → State
  | [] => s
  | b :: bs => (s.writeByte a b).writeBytes (a + 1) bs

/-- One-byte reads at `n` ascending addresses from `a` (R37). -/
def State.readBytes (s : State) (a : Nat) : Nat → List Byte
  | 0 => []
  | n + 1 => s.readByte a :: s.readBytes (a + 1) n

/-! ### General registers (R16, R17) -/

/-- Read `V[x]`. -/
def State.v (s : State) (x : Nibble) : Byte := s.regs[x.toNat]'x.isLt

/-- `V[x] <- b`. -/
def State.setV (s : State) (x : Nibble) (b : Byte) : State :=
  { s with regs := s.regs.set x.toNat b x.isLt }

/-- `V[k] <- b` for ascending `k` from `k` on (R104). -/
def State.writeRegs (s : State) (k : Nat) : List Byte → State
  | [] => s
  | b :: bs => (s.setV (BitVec.ofNat 4 k) b).writeRegs (k + 1) bs

/-- V0 to V(n-1), in ascending order (R103). -/
def State.lowRegs (s : State) (n : Nat) : List Byte :=
  (List.range n).map (fun k => s.v (BitVec.ofNat 4 k))

/-! ### Index register and program counter (R18, R20) -/

/-- `I <- w`. -/
def State.setI (s : State) (w : Word) : State := { s with i := w }

/-- `pc <- w`. -/
def State.setPc (s : State) (w : Word) : State := { s with pc := w }

/-- `skip`: `pc <- pc + 2`, on top of the fetch advance (R75). -/
def State.skip (s : State) : State := s.setPc (s.pc + 2#16)

/-- `skip` when the condition holds (R79 to R82, R117, R118). -/
def State.skipIf (s : State) (c : Bool) : State := if c then s.skip else s

/-! ### Call stack (R22) -/

/-- The entry `S[k]`. -/
def State.entry (s : State) (k : Fin 16) : Word := s.stack[k.val]

/-- A push: `S[SP] <- w`, then SP is incremented; `none` at depth 16 (R22, R78). -/
def State.push (s : State) (w : Word) : Option State :=
  if h : s.sp.val < 16 then
    some { s with stack := s.stack.set s.sp.val w h, sp := ⟨s.sp.val + 1, by omega⟩ }
  else none

/-- A pop: SP is decremented, then `S[SP]` is read; the entry keeps its value. `none` at depth 0 (R22, R76). -/
def State.pop (s : State) : Option (Word × State) :=
  if h : s.sp.val = 0 then none
  else
    some (s.stack[s.sp.val - 1]'(by have := s.sp.isLt; omega),
      { s with sp := ⟨s.sp.val - 1, by have := s.sp.isLt; omega⟩ })

/-! ### Timers (R23) -/

/-- `DT <- b`. -/
def State.setDt (s : State) (b : Byte) : State := { s with dt := b }

/-- `ST <- b`. -/
def State.setSt (s : State) (b : Byte) : State := { s with st := b }

/-- One tick of one timer: minus 1 while above 0 (R67). -/
def tickDown (b : Byte) : Byte := if b = 0#8 then 0#8 else b - 1#8

/-- The timer tick (R67). -/
def State.tick (s : State) : State := { s with dt := tickDown s.dt, st := tickDown s.st }

/-! ### Framebuffer and redraw flag (R24, R28) -/

/-- The pixel `FB[c][r]`; false outside the 64 by 32 pixels. -/
def State.pixel (s : State) (c r : Nat) : Bool :=
  if h : c < 64 ∧ r < 32 then (s.fb[c]'h.1)[r]'h.2 else false

/-- `FB[c][r] <- p`; nothing outside the 64 by 32 pixels. -/
def State.setPixel (s : State) (c r : Nat) (p : Bool) : State :=
  if h : c < 64 ∧ r < 32 then
    { s with fb := s.fb.set c ((s.fb[c]'h.1).set r p h.2) h.1 }
  else s

/-- Every pixel 0 (R105). -/
def State.clearPixels (s : State) : State :=
  { s with fb := Vector.replicate 64 (Vector.replicate 32 false) }

/-- `redraw <- b`. -/
def State.setRedraw (s : State) (b : Bool) : State := { s with redraw := b }

/-! ### Keypad (R25) -/

/-- The flag `K[k]`; false outside 0 to 15. -/
def State.key (s : State) (k : Nat) : Bool := if h : k < 16 then s.keys[k] else false

/-- The first pressed key, "scanning keys 0..15 in ascending order" (R120). -/
def State.firstKey (s : State) : Option Nat := (List.range Config.numKeys).find? (fun k => s.key k)

/-! ### The draw of Cxnn (R11) -/

/-- The draw the next executed Cxnn takes: a free value. -/
def State.draw (s : State) : Byte := Config.rndDraw s.draws

/-- The draw is taken. -/
def State.nextDraw (s : State) : State := { s with draws := s.draws + 1 }

/-! ### Reports (R68 to R70)

"TAKING AN EXCEPTION" on this hardware: there is no trap entry, no saved register, no mode, no vector and no return
from a trap (R127, R128, R130). A fatal condition ends the cycle and is reported to the caller; `raiseFatal` is the one
operation that does so. -/

/-- `note Diag(d)`: the condition is reported and the execution goes on (R70). -/
def State.note (s : State) (d : Diag) : State :=
  { s with outcome := match s.outcome with
    | .ok ds => .ok (ds ++ [d])
    | .fatal k => .fatal k }

/-- `raise Fatal(k)`: nothing but the report and the sticky record changes (R69, D2). The end of the cycle
(`finishCycle`) then leaves out the timer tick. -/
def State.raiseFatal (s : State) (k : FatalKind) : State :=
  { s with outcome := .fatal k, faults := s.faults ++ [k] }

/-! ### The pieces of the cycle (spec/40_cycle.md) -/

/-- The fetch checks, in their order: the fetch bound (R62), then the ROM-end check when it is enabled (R63, R126). -/
def State.fetchCheck (s : State) : Option FatalKind :=
  if s.pc.toNat + 1 > 4095 then some .fetchOutOfRange
  else if s.config.romEndCheck = true ∧ s.pc.toNat ≥ Config.programStart + s.romSize then some .fetchPastRom
  else none

/-- The instruction word at pc, big-endian (R35, R64). -/
def State.fetchWord (s : State) : Word :=
  wordOfBytes (s.readByte s.pc.toNat) (s.readByte (s.pc.toNat + 1))

/-- The state the execute step sees: pc advanced by 2 (R65), no condition noted yet in this cycle. -/
def State.advance (s : State) : State := { s with pc := s.pc + 2#16, outcome := .ok [] }

/-- The execute step of an unknown opcode: the condition is noted, no state changes (R59). -/
def execUnknown (s : State) : Host.Outcome State Fault Refusal := .next (s.note .unknownOpcode)

/-- The end of the cycle (R67, R69, R73): after an execute step that did not end fatally the timers tick, after one
that did they do not. -/
def finishCycle : Host.Outcome State Fault Refusal → Host.Outcome State Fault Refusal
  | .next s => .next (if s.outcome.isFatal then s else s.tick)
  | .fault f => .fault f
  | .refused r => .refused r

/-- The state in which the very next cycle fetches the instruction with bits `w` of the opcode table: the word's two
bytes are stored at pc. Where no word can be fetched at pc (R62), pc is first put at the entry point 0x200; where the
ROM-end check would stop the fetch (R63), L is raised to take the word in. -/
def State.placeWord (s : State) (nbits w : Nat) : State :=
  let s1 := if s.pc.toNat + 1 > 4095 then s.setPc 0x200#16 else s
  let s2 := s1.writeBytes s1.pc.toNat (tableWordBytes nbits w)
  if s2.fetchCheck = none then s2
  else { s2 with romSize := s2.pc.toNat + 2 - Config.programStart }

end Sys2Proof.Machine
end

