-- ==== Sys2Proof/Machine/Operands.lean ====
section
/-! DEFINITION. Every operand form of the spec (spec/30_encoding.md R52; spec/43_index_memory.md, Addressing). The byte
immediate nn and the register operands are used as they are (`State.v`); every immediate is zero-extended. -/

namespace Sys2Proof.Machine

/-- `nnn` as an address, zero-extended to 16 bits (R52). -/
def addrOf (nnn : Addr12) : Word := nnn.setWidth 16

/-- The target of Bnnn: `zext_16(V[0]) + nnn` (R52, R83). -/
def State.offsetTarget (s : State) (nnn : Addr12) : Word := (s.v 0x0#4).setWidth 16 + addrOf nnn

/-- The effective address of the first byte of a transfer, I; the k-th byte is at `I + k`, on the integers with no wrap
(spec/43_index_memory.md, Addressing). -/
def State.indexAddr (s : State) : Nat := s.i.toNat

/-- How many registers Fx55 and Fx65 move: V0 to Vx, x + 1 of them (R103, R104). -/
def blockCount (x : Nibble) : Nat := x.toNat + 1

/-- `I + V[x]` on the integers (R100). -/
def State.indexSum (s : State) (x : Nibble) : Nat := s.i.toNat + (s.v x).toNat

/-- The address of the glyph of digit `d`, `0x050 + 5 * d` (R4, R101). -/
def glyphAddr (d : Byte) : Word := BitVec.ofNat 16 (Config.fontBase + Config.glyphBytes * d.toNat)

/-- The three decimal digits of a byte: hundreds, tens, units (R102). -/
def bcdDigits (b : Byte) : List Byte :=
  [BitVec.ofNat 8 (b.toNat / 100), BitVec.ofNat 8 (b.toNat / 10 % 10), BitVec.ofNat 8 (b.toNat % 10)]

/-- The column of a sprite's left edge: `V[x] mod 64` (R107). -/
def State.spriteCol (s : State) (x : Nibble) : Nat := (s.v x).toNat % Config.displayW

/-- The row of a sprite's top edge: `V[y] mod 32` (R107). -/
def State.spriteRow (s : State) (y : Nibble) : Nat := (s.v y).toNat % Config.displayH

/-- The number of rows drawn: `min(n, 32 - y0)` (R109). -/
def State.spriteRows (s : State) (y n : Nibble) : Nat := min n.toNat (Config.displayH - s.spriteRow y)

end Sys2Proof.Machine
end

