-- ==== Sys2Proof/Machine/ControlFlow.lean ====
section
/-! DEFINITION. Control transfer (spec/41_control_flow.md). Every meaning runs in the execute step, so pc already holds
the fetch address plus 2 (R65). No target is checked; a bad one fails at the next fetch (R84). -/

namespace Sys2Proof.Machine

/-- 00EE RET (R76): the popped entry becomes pc; `Fatal(StackUnderflow)` on an empty stack. -/
def execRet (s : State) : Host.Outcome State Fault Refusal :=
  match s.pop with
  | some (w, s') => .next (s'.setPc w)
  | none => .next (s.raiseFatal .stackUnderflow)

/-- 1nnn JP (R77). -/
def execJp (nnn : Addr12) (s : State) : Host.Outcome State Fault Refusal := .next (s.setPc (addrOf nnn))

/-- 2nnn CALL (R78): pc, the return address, is pushed; `Fatal(StackOverflow)` at depth 16. -/
def execCall (nnn : Addr12) (s : State) : Host.Outcome State Fault Refusal :=
  match s.push s.pc with
  | some s' => .next (s'.setPc (addrOf nnn))
  | none => .next (s.raiseFatal .stackOverflow)

/-- 3xnn SE Vx, nn (R79). -/
def execSeImm (x : Nibble) (nn : Byte) (s : State) : Host.Outcome State Fault Refusal :=
  .next (s.skipIf (s.v x == nn))

/-- 4xnn SNE Vx, nn (R80). -/
def execSneImm (x : Nibble) (nn : Byte) (s : State) : Host.Outcome State Fault Refusal :=
  .next (s.skipIf (s.v x != nn))

/-- 5xy0 SE Vx, Vy (R81). -/
def execSeReg (x y : Nibble) (s : State) : Host.Outcome State Fault Refusal :=
  .next (s.skipIf (s.v x == s.v y))

/-- 9xy0 SNE Vx, Vy (R82). -/
def execSneReg (x y : Nibble) (s : State) : Host.Outcome State Fault Refusal :=
  .next (s.skipIf (s.v x != s.v y))

/-- Bnnn JP V0, nnn (R83): always V0, and the sum is not reduced. -/
def execJpV0 (nnn : Addr12) (s : State) : Host.Outcome State Fault Refusal := .next (s.setPc (s.offsetTarget nnn))

end Sys2Proof.Machine
end

