-- ==== Sys2Proof/Machine/Flags.lean ====
section
/-! DEFINITION. Every flag computation of the spec (spec/42_load_alu.md R85, R93 to R97), the results that go with
them, and the order of the flag write and the result write (R86). -/

namespace Sys2Proof.Machine

/-- A flag as the byte VF takes: 1 or 0. -/
def flagByte (b : Bool) : Byte := if b then 1#8 else 0#8

/-- Carry of 8xy4: 1 when the exact sum passes 255 (R93). -/
def carryFlag (a b : Byte) : Byte := flagByte (decide (a.toNat + b.toNat > 255))

/-- Not-borrow of 8xy5 and, with the operands exchanged, of 8xy7: 1 when the minuend is strictly greater than the
subtrahend (R94, R96). -/
def notBorrowFlag (minuend subtrahend : Byte) : Byte := flagByte (decide (minuend.toNat > subtrahend.toNat))

/-- The bit 8xy6 shifts out: bit 0 (R95). -/
def shiftedOutLow (a : Byte) : Byte := flagByte (a.getLsbD 0)

/-- The bit 8xyE shifts out: bit 7 (R97). -/
def shiftedOutHigh (a : Byte) : Byte := flagByte (a.getLsbD 7)

/-- `(a + b) mod 256` (R85, R93). -/
def addResult (a b : Byte) : Byte := a + b

/-- `(minuend - subtrahend) mod 256` (R85, R94). -/
def subResult (minuend subtrahend : Byte) : Byte := minuend - subtrahend

/-- `a >> 1`, shifting in a 0 (R95). -/
def shrResult (a : Byte) : Byte := a >>> 1

/-- `(a << 1) mod 256`, shifting in a 0 (R97). -/
def shlResult (a : Byte) : Byte := a <<< 1

/-- A flag-writing ALU instruction (R86): the flag from the registers at the start; then, by `P_ALU_SELFREF`, either VF
first and the result from the registers as they then stand, or the result of the original operands first and VF
last. -/
def State.flagAlu (s : State) (x y : Nibble) (flag result : Byte → Byte → Byte) : State :=
  let f := flag (s.v x) (s.v y)
  match s.config.aluSelfRef with
  | .seqFlagFirst =>
    let s1 := s.setV Config.vf f
    s1.setV x (result (s1.v x) (s1.v y))
  | .latchedFlagLast => (s.setV x (result (s.v x) (s.v y))).setV Config.vf f

end Sys2Proof.Machine
end

