-- ==== Sys2Proof/Machine/Display.lean ====
section
/-! DEFINITION. The display and the sprite renderer (spec/44_display.md), step by step as the pseudocode of R106. -/

namespace Sys2Proof.Machine

/-- 00E0 CLS (R105): every pixel 0, and `redraw` set (D15). -/
def execCls (s : State) : Host.Outcome State Fault Refusal := .next (s.clearPixels.setRedraw true)

/-- The bit of column `c` of a sprite row: bit `7 - c`, the most significant bit leftmost (R111, D12). -/
def spriteBit (b : Byte) (c : Nat) : Bool := b.getLsbD (7 - c)

/-- One pixel of a sprite: a 1 over a 1 is a collision and sets VF (R113); the pixel becomes the XOR (R112). -/
def State.blitPixel (s : State) (col row : Nat) (bit : Bool) : State :=
  let s1 := if bit && s.pixel col row then s.setV Config.vf 1#8 else s
  s1.setPixel col row (s1.pixel col row ^^ bit)

/-- One row of a sprite: columns 0 to 7, wrapping horizontally (R110). -/
def State.blitRow (s : State) (x0 row : Nat) (b : Byte) : State :=
  (List.range 8).foldl (fun t c => t.blitPixel ((x0 + c) % Config.displayW) row (spriteBit b c)) s

/-- The first `rows` rows of a sprite, in order; row `r` is the byte at `I + r` (R109). -/
def State.blitRows (s : State) (x0 y0 rows : Nat) : State :=
  (List.range rows).foldl (fun t r => t.blitRow x0 (y0 + r) (t.readByte (t.indexAddr + r))) s

/-- Dxyn DRW Vx, Vy, n (R106 to R115): the position and the number of rows are read first (R107, R109); undefined when
a row to be drawn lies past address 4095 (R115, R71, D9); then VF is cleared (R108), the rows are drawn, and `redraw`
is set (R114). -/
def execDrw (x y n : Nibble) (s : State) : Host.Outcome State Fault Refusal :=
  if s.spriteRows y n > 0 ∧ s.indexAddr + s.spriteRows y n - 1 > 4095 then .fault .spriteReadOutOfRange
  else
    .next (((s.setV Config.vf 0#8).blitRows (s.spriteCol x) (s.spriteRow y) (s.spriteRows y n)).setRedraw true)

end Sys2Proof.Machine
end

