-- ==== Sys2Proof/Machine/IndexMemory.lean ====
section
/-! DEFINITION. Index register and memory transfer (spec/43_index_memory.md). I is unchanged by a transfer (D7). -/

namespace Sys2Proof.Machine

/-- Annn LD I, nnn (R99). -/
def execLdI (nnn : Addr12) (s : State) : Host.Outcome State Fault Refusal := .next (s.setI (addrOf nnn))

/-- Fx1E ADD I, Vx (R100): a sum above 4095 is noted and resets I to 0; VF is never written (D6). -/
def execAddIVx (x : Nibble) (s : State) : Host.Outcome State Fault Refusal :=
  if s.indexSum x > 4095 then .next ((s.note .indexOverflow).setI 0#16)
  else .next (s.setI (BitVec.ofNat 16 (s.indexSum x)))

/-- Fx29 LD F, Vx (R101): a byte of 16 or more is noted and resets I to 0. -/
def execLdFVx (x : Nibble) (s : State) : Host.Outcome State Fault Refusal :=
  if (s.v x).toNat ≥ 16 then .next ((s.note .fontDigitOutOfRange).setI 0#16)
  else .next (s.setI (glyphAddr (s.v x)))

/-- Fx33 LD B, Vx (R102): the three decimal digits at I, I+1, I+2; undefined when I + 2 > 4095 (R71, D10). -/
def execLdBVx (x : Nibble) (s : State) : Host.Outcome State Fault Refusal :=
  if s.indexAddr + 2 > 4095 then .fault .bcdWriteOutOfRange
  else .next (s.writeBytes s.indexAddr (bcdDigits (s.v x)))

/-- Fx55 LD [I], Vx (R103): V0 to Vx at I to I + x; fatal, before any byte, when I + x > 4095. -/
def execStRegs (x : Nibble) (s : State) : Host.Outcome State Fault Refusal :=
  if s.indexAddr + x.toNat > 4095 then .next (s.raiseFatal .blockTransferOutOfRange)
  else .next (s.writeBytes s.indexAddr (s.lowRegs (blockCount x)))

/-- Fx65 LD Vx, [I] (R104): V0 to Vx from I to I + x; fatal, before any byte, when I + x > 4095. -/
def execLdRegs (x : Nibble) (s : State) : Host.Outcome State Fault Refusal :=
  if s.indexAddr + x.toNat > 4095 then .next (s.raiseFatal .blockTransferOutOfRange)
  else .next (s.writeRegs 0 (s.readBytes s.indexAddr (blockCount x)))

end Sys2Proof.Machine
end

