-- ==== Sys2Proof/Machine/KeysTimers.lean ====
section
/-! DEFINITION. Keypad and timer instructions (spec/45_keys_timers.md). The keypad is only read. -/

namespace Sys2Proof.Machine

/-- Ex9E SKP Vx (R117): undefined when V[x] >= 16 (R71, D11). -/
def execSkp (x : Nibble) (s : State) : Host.Outcome State Fault Refusal :=
  if (s.v x).toNat ≥ 16 then .fault .keyIndexOutOfRange
  else .next (s.skipIf (s.key (s.v x).toNat))

/-- ExA1 SKNP Vx (R118): undefined when V[x] >= 16 (R71, D11). -/
def execSknp (x : Nibble) (s : State) : Host.Outcome State Fault Refusal :=
  if (s.v x).toNat ≥ 16 then .fault .keyIndexOutOfRange
  else .next (s.skipIf (!s.key (s.v x).toNat))

/-- Fx07 LD Vx, DT (R119): DT as it stands before the tick of this cycle. -/
def execLdVxDt (x : Nibble) (s : State) : Host.Outcome State Fault Refusal := .next (s.setV x s.dt)

/-- Fx0A LD Vx, K (R120): the lowest pressed key, or pc rewound to this instruction when none is pressed. -/
def execLdVxK (x : Nibble) (s : State) : Host.Outcome State Fault Refusal :=
  match s.firstKey with
  | some k => .next (s.setV x (BitVec.ofNat 8 k))
  | none => .next (s.setPc (s.pc - 2#16))

/-- Fx15 LD DT, Vx (R121). -/
def execLdDtVx (x : Nibble) (s : State) : Host.Outcome State Fault Refusal := .next (s.setDt (s.v x))

/-- Fx18 LD ST, Vx (R122). -/
def execLdStVx (x : Nibble) (s : State) : Host.Outcome State Fault Refusal := .next (s.setSt (s.v x))

end Sys2Proof.Machine
end

