-- ==== Sys2Proof/Machine/LoadAlu.lean ====
section
/-! DEFINITION. Register loads, arithmetic and logic (spec/42_load_alu.md). None of these can fail. -/

namespace Sys2Proof.Machine

/-- 6xnn LD Vx, nn (R87). -/
def execLdImm (x : Nibble) (nn : Byte) (s : State) : Host.Outcome State Fault Refusal := .next (s.setV x nn)

/-- 7xnn ADD Vx, nn (R88): modulo 256, no flag. -/
def execAddImm (x : Nibble) (nn : Byte) (s : State) : Host.Outcome State Fault Refusal :=
  .next (s.setV x (addResult (s.v x) nn))

/-- 8xy0 LD Vx, Vy (R89). -/
def execLdReg (x y : Nibble) (s : State) : Host.Outcome State Fault Refusal := .next (s.setV x (s.v y))

/-- 8xy1 OR Vx, Vy (R90): VF only as the destination (D5). -/
def execOrReg (x y : Nibble) (s : State) : Host.Outcome State Fault Refusal := .next (s.setV x (s.v x ||| s.v y))

/-- 8xy2 AND Vx, Vy (R91): VF only as the destination (D5). -/
def execAndReg (x y : Nibble) (s : State) : Host.Outcome State Fault Refusal := .next (s.setV x (s.v x &&& s.v y))

/-- 8xy3 XOR Vx, Vy (R92): VF only as the destination (D5). -/
def execXorReg (x y : Nibble) (s : State) : Host.Outcome State Fault Refusal := .next (s.setV x (s.v x ^^^ s.v y))

/-- 8xy4 ADD Vx, Vy (R93), in the order of R86. -/
def execAddReg (x y : Nibble) (s : State) : Host.Outcome State Fault Refusal :=
  .next (s.flagAlu x y carryFlag addResult)

/-- 8xy5 SUB Vx, Vy (R94), in the order of R86. -/
def execSubReg (x y : Nibble) (s : State) : Host.Outcome State Fault Refusal :=
  .next (s.flagAlu x y notBorrowFlag subResult)

/-- 8xy6 SHR Vx (R95), in the order of R86; Vy is not read. -/
def execShr (x y : Nibble) (s : State) : Host.Outcome State Fault Refusal :=
  .next (s.flagAlu x y (fun a _ => shiftedOutLow a) (fun a _ => shrResult a))

/-- 8xy7 SUBN Vx, Vy (R96), in the order of R86: `V[y] - V[x]`. -/
def execSubnReg (x y : Nibble) (s : State) : Host.Outcome State Fault Refusal :=
  .next (s.flagAlu x y (fun a b => notBorrowFlag b a) (fun a b => subResult b a))

/-- 8xyE SHL Vx (R97), in the order of R86; Vy is not read. -/
def execShl (x y : Nibble) (s : State) : Host.Outcome State Fault Refusal :=
  .next (s.flagAlu x y (fun a _ => shiftedOutHigh a) (fun a _ => shlResult a))

/-- Cxnn RND Vx, nn (R98): the draw of this execution, a free value, under the mask nn. -/
def execRnd (x : Nibble) (nn : Byte) (s : State) : Host.Outcome State Fault Refusal :=
  .next (s.nextDraw.setV x (s.draw &&& nn))

end Sys2Proof.Machine
end

