-- ==== Sys2Proof/Machine/Step.lean ====
section
/-! DEFINITION. The step of the block, one cycle (spec/40_cycle.md R62 to R73). It only composes the operations of
Sys2Proof/Machine/Ops.lean, the decoder and `exec`. -/

namespace Sys2Proof.Machine

/-- Run one cycle (R73, R134): the fetch checks, the fetch, the advance, decode and execute, the timer tick. A fetch
that fails changes nothing but the report (R62, R63, R69). -/
def step (s : State) : Host.Outcome State Fault Refusal :=
  match s.fetchCheck with
  | some k => .next (s.raiseFatal k)
  | none =>
    match decode s.fetchWord with
    | .ok i => finishCycle (exec i s.advance)
    | .error _ => finishCycle (execUnknown s.advance)

/-- The state in which the very next step fetches and runs the instruction with bits `w` of the opcode table; it stands
for the host's ROM load (R143; notes/assumptions/5.md). -/
def State.withFetchWord (s : State) (nbits w : Nat) : State := s.placeWord nbits w

end Sys2Proof.Machine
end

