-- ==== Sys2Proof/Machine/HostCalls.lean ====
section
/-! DEFINITION. The host interface (spec/60_exceptions.md R133 to R138, spec/70_reset_and_hazards.md R143): the calls the
host makes between two cycles, each with what it changes and what the host gets back. -/

namespace Sys2Proof.Machine

/-- The conditions of the host calls; they are no cycle outcomes (R124). -/
inductive HostSignal where
  /-- A key index, column or row out of range (R135, R137). -/
  | outOfRange
  /-- A ROM of more than 3584 bytes (R143). -/
  | romTooLarge
  deriving DecidableEq, Repr

/-- Set key (R135): `K[k] <- pressed` for k in 0 to 15; any other index is signalled and changes nothing. -/
def State.setKey (s : State) (k : Nat) (pressed : Bool) : State × Option HostSignal :=
  if h : k < 16 then ({ s with keys := s.keys.set k pressed h }, none) else (s, some .outOfRange)

/-- A polling pass: one pressed or released flag per key index 0 to 15, 16 set-key calls (R135, D25). -/
def State.setAllKeys (s : State) (flags : Vector Bool 16) : State :=
  (List.range Config.numKeys).foldl (fun t k => (t.setKey k (flags.getD k false)).1) s

/-- Consume redraw (R136): the value before the call, and the flag cleared. -/
def State.consumeRedraw (s : State) : Bool × State := (s.redraw, s.setRedraw false)

/-- Read pixel (R137): the pixel, or 0 with a signal when out of range; the state does not change. -/
def State.readPixel (s : State) (x y : Int) : Bool × Option HostSignal :=
  if 0 ≤ x ∧ x < 64 ∧ 0 ≤ y ∧ y < 32 then (s.pixel x.toNat y.toNat, none) else (false, some .outOfRange)

/-- Read sound flag: `ST > 0` (R29, R138). -/
def State.soundFlag (s : State) : Bool := decide (s.st.toNat > 0)

/-- Load ROM (R143): the bytes at 0x200 upward and L, and nothing else; `RomTooLarge` changes nothing. -/
def State.loadRom (s : State) (rom : List Byte) : State × Option HostSignal :=
  if rom.length > Config.maxRom then (s, some .romTooLarge)
  else ({ s.writeBytes Config.programStart rom with romSize := rom.length }, none)

/-- The calls of the host interface (R133). -/
inductive HostCall where
  /-- run one cycle, R134 -/
  | runCycle
  /-- set key, R135 -/
  | setKey (k : Nat) (pressed : Bool)
  /-- consume redraw, R136 -/
  | consumeRedraw
  /-- read pixel, R137 -/
  | readPixel (x y : Int)
  /-- read sound flag, R138 -/
  | readSound
  /-- load ROM, R143 -/
  | loadRom (rom : List Byte)
  deriving DecidableEq, Repr

/-- What a call does to the state; what it returns is given by the operation of its name, and for a cycle by
`State.outcome` of the next state. -/
def hostCall (c : HostCall) (s : State) : Host.Outcome State Fault Refusal :=
  match c with
  | .runCycle => step s
  | .setKey k pressed => .next (s.setKey k pressed).1
  | .consumeRedraw => .next s.consumeRedraw.2
  | .readPixel _ _ => .next s
  | .readSound => .next s
  | .loadRom rom => .next (s.loadRom rom).1

end Sys2Proof.Machine
end

