-- ==== Sys2Proof/Machine/Run.lean ====
section
/-! DEFINITION. A run and its end (spec/70_reset_and_hazards.md R152): the host's calls in order, and the FIRST cycle
boundary at which one of the three cases of R152 holds. A boundary is the end of a cycle, so a run ends at no call but
a cycle, and the calls that follow its end are no part of it (notes/assumptions/17.md). -/

namespace Sys2Proof.Machine

/-- The word at pc is `1nnn` with nnn = pc, the idle loop of R77. -/
def State.atSelfJump (s : State) : Bool :=
  match decode s.fetchWord with
  | .ok (.jp nnn) => decide (s.pc.toNat + 1 ≤ 4095) && addrOf nnn == s.pc
  | _ => false

/-- How far a run has come. -/
inductive RunStatus where
  /-- No cycle boundary so far is an end. -/
  | running (s : State)
  /-- R152, case 1, the only good end, with the end state. -/
  | good (s : State)
  /-- R152, case 2: the run ended with a fault, in this state. -/
  | fatal (kind : FatalKind) (s : State)
  /-- R152, case 3: the run ended with a model fault and has no end state. This is also where a run records an
  Undefined outcome for D2 (notes/assumptions/4.md). -/
  | undefined (f : Fault)
  /-- A refused instruction; no instruction of this model is refused. -/
  | refused (r : Refusal)
  deriving DecidableEq, Repr

/-- The three cases of R152 at the boundary after a cycle with this outcome. -/
def cycleBoundary : Host.Outcome State Fault Refusal → RunStatus
  | .next t =>
    match t.outcome with
    | .fatal k => .fatal k t
    | .ok _ => if t.atSelfJump then .good t else .running t
  | .fault f => .undefined f
  | .refused r => .refused r

/-- A run after one more call of the host: a cycle reaches a boundary, any other call reaches none (R133, R152).
DESIGN CHOICE: R152 says nothing about a run the host interrupts with a ROM load. Here such a run goes on through the
load, with the new memory, and a self-jump the load puts at pc is no end until the boundary after a further cycle
(notes/assumptions/17.md). Unsafe for a claim about the end of a run so interrupted. -/
def runCall (c : HostCall) (s : State) : RunStatus :=
  match c with
  | .runCycle => cycleBoundary (step s)
  | .setKey k pressed => .running (s.setKey k pressed).1
  | .consumeRedraw => .running s.consumeRedraw.2
  | .readPixel _ _ => .running s
  | .readSound => .running s
  | .loadRom rom => .running (s.loadRom rom).1

/-- The run of the host's calls from `s`: it goes on while no boundary is an end, and its first end is its end. -/
def runCalls : List HostCall → State → RunStatus
  | [], s => .running s
  | c :: cs, s =>
    match runCall c s with
    | .running t => runCalls cs t
    | .good t => .good t
    | .fatal k t => .fatal k t
    | .undefined f => .undefined f
    | .refused r => .refused r

end Sys2Proof.Machine
end

