-- ==== Sys2Proof/Safety.lean ====
section
/-! DEFINITION. The terms in which claims are made: the parts of the state, frames, the well-formedness of a state
(spec/10_state.md R33), the states an instance can reach, and the ends of a run
(spec/70_reset_and_hazards.md R152). -/

namespace Sys2Proof.Machine

/-- The parts of the state (R15 to R28), and the model's own fields. -/
inductive Part where
  | mem | regs | i | pc | stack | sp | dt | st | fb | keys | romSize | redraw | config | draws | outcome | faults
  deriving DecidableEq, Repr

/-- A part reads the same in two states: for memory every byte, for the registers every register, for the framebuffer
every pixel, for the stack every entry, for the keypad every key. -/
def SamePart (p : Part) (s t : State) : Prop :=
  match p with
  | .mem => ∀ a, t.readByte a = s.readByte a
  | .regs => ∀ y, t.v y = s.v y
  | .i => t.i = s.i
  | .pc => t.pc = s.pc
  | .stack => ∀ k, t.entry k = s.entry k
  | .sp => t.sp = s.sp
  | .dt => t.dt = s.dt
  | .st => t.st = s.st
  | .fb => ∀ c r, t.pixel c r = s.pixel c r
  | .keys => ∀ k, t.key k = s.key k
  | .romSize => t.romSize = s.romSize
  | .redraw => t.redraw = s.redraw
  | .config => t.config = s.config
  | .draws => t.draws = s.draws
  | .outcome => t.outcome = s.outcome
  | .faults => t.faults = s.faults

/-- The frame: nothing but the listed parts differs between `s` and `t`. -/
def KeepsAllBut (ps : List Part) (s t : State) : Prop := ∀ p, p ∉ ps → SamePart p s t

/-- Every register but those listed keeps its value. -/
def KeepsRegsBut (xs : List Nibble) (s t : State) : Prop := ∀ y, y ∉ xs → t.v y = s.v y

/-- The parts of the state that the execute step of an instruction may write, over all its operands and conditions
(spec/10_state.md R17, R18, R22 to R25, R27, R28; spec/20_memory.md R41). -/
def instrWrites : Instr → List Part
  | .cls => [.fb, .redraw]
  | .ret => [.pc, .sp, .outcome, .faults]
  | .jp _ => [.pc]
  | .call _ => [.pc, .stack, .sp, .outcome, .faults]
  | .seImm _ _ => [.pc]
  | .sneImm _ _ => [.pc]
  | .seReg _ _ => [.pc]
  | .ldImm _ _ => [.regs]
  | .addImm _ _ => [.regs]
  | .ldReg _ _ => [.regs]
  | .orReg _ _ => [.regs]
  | .andReg _ _ => [.regs]
  | .xorReg _ _ => [.regs]
  | .addReg _ _ => [.regs]
  | .subReg _ _ => [.regs]
  | .shr _ _ => [.regs]
  | .subnReg _ _ => [.regs]
  | .shl _ _ => [.regs]
  | .sneReg _ _ => [.pc]
  | .ldI _ => [.i]
  | .jpV0 _ => [.pc]
  | .rnd _ _ => [.regs, .draws]
  | .drw _ _ _ => [.fb, .regs, .redraw]
  | .skp _ => [.pc]
  | .sknp _ => [.pc]
  | .ldVxDt _ => [.regs]
  | .ldVxK _ => [.regs, .pc]
  | .ldDtVx _ => [.dt]
  | .ldStVx _ => [.st]
  | .addIVx _ => [.i, .outcome]
  | .ldFVx _ => [.i, .outcome]
  | .ldBVx _ => [.mem]
  | .stRegs _ => [.mem, .outcome, .faults]
  | .ldRegs _ => [.regs, .outcome, .faults]

/-- The encoding of a row of the opcode map: the words `w` with `w & mask = bits` are exactly those that decode to
`f w`. -/
def DecodesRow (mask bits : Word) (f : Word → Instr) : Prop := ∀ w : Word, w &&& mask = bits ↔ decode w = .ok (f w)

/-- The well-formedness of a state (R33); the widths, SP in 0 to 16 and the bytes' ranges are in the types. The last
clause is the canonical form of memory. -/
abbrev State.Inv (s : State) : Prop :=
  s.i.toNat ≤ 4095 ∧ s.pc.toNat ≤ 0x10FE ∧ s.romSize ≤ 3584 ∧ (∀ k, (s.entry k).toNat ≤ 0x1000) ∧
    s.mem.wf (resetByte s.config.font)

/-- The states an instance with parameters `c` reaches from construction by cycles and host calls (R33). -/
inductive Reachable (c : Config) : State → Prop where
  | construct : Reachable c (State.construct c)
  | call {s t : State} (h : HostCall) : Reachable c s → hostCall h s = .next t → Reachable c t

/-- The condition of R152, case 1, at a cycle boundary: the last cycle ended `Ok` and the word at pc is a jump to itself.
A run's good end is its FIRST such boundary, `runCalls cs s = .good t` (Sys2Proof/Machine/Run.lean); the later boundaries of
the idle loop meet this condition too. -/
def State.goodEnd (s : State) : Prop := s.outcome.isFatal = false ∧ s.atSelfJump = true

/-- The condition of R152, case 2, at a cycle boundary: the last cycle ended `Fatal`. A run's end is its first such
boundary, `runCalls cs s = .fatal k t`. -/
def State.fatalEnd (s : State) : Prop := s.outcome.isFatal = true

/-- The condition of R152, case 3: the cycle from `s` ends `Undefined`, and the run has no end state,
`runCalls cs s = .undefined f`. -/
def State.undefinedEnd (s : State) : Prop := ∃ f, step s = .fault f

/-- No cycle so far ended `Fatal`: the sticky record is empty. A state exists only where no cycle before it ended
`Undefined` either, which is recorded as the step's `.fault` (D2; notes/assumptions/4.md). -/
def State.safeSoFar (s : State) : Prop := s.faults = []

end Sys2Proof.Machine
end

