-- ==== Sys2Proof/Certificates/Slice0/Obligations.lean ====
section
/-! DEFINITION. The statements for the provers. Each cites the rules of spec/ it formalises; OBLIGATIONS.json lists
them. `exec i s = .next t` says that instruction `i` completes in state `s`, whose pc already holds the fetch address
plus 2 (R65), and leaves `t`; the timer tick is the step's (R67). `KeepsAllBut ps s t` is the frame: every part of the
state outside `ps` reads the same, for memory at every address. -/

open Sys2Proof Sys2Proof.Machine

/-! ### Construction, well-formedness, whole-machine rules -/

/-- R32: the value of every piece of state after construction, for every `P_FONT`. -/
def Obligations.ConstructionGivesTheResetValues : Prop :=
  ∀ (cfg : Config) (s : State), s = State.construct cfg →
    (∀ a, a < 0x050 → s.readByte a = 0#8) ∧
    (∀ k (h : k < 80), s.readByte (0x050 + k) = cfg.font[k]) ∧
    (∀ a, 0x0A0 ≤ a → a < 4096 → s.readByte a = 0#8) ∧
    (∀ y, s.v y = 0#8) ∧ s.i = 0#16 ∧ s.pc = 0x200#16 ∧ (∀ k, s.entry k = 0#16) ∧ s.sp.val = 0 ∧
    s.dt = 0#8 ∧ s.st = 0#8 ∧ (∀ c r, s.pixel c r = false) ∧ (∀ k, s.key k = false) ∧ s.romSize = 0 ∧
    s.redraw = false

/-- The state after construction is well formed (R33), whatever the parameters. Well formed means the ranges of R33 (I
at most 4095, pc at most 0x10FE, L at most 3584, every stack entry at most 0x1000) and one clause of the model's own,
no part of R33: memory in canonical form (log entry 15, DEDUCED). -/
def Obligations.ConstructionIsWellFormed : Prop := ∀ cfg : Config, (State.construct cfg).Inv

/-- Every cycle keeps the well-formedness of R33 and the canonical form of memory. From every well-formed state, not
only from those a run reaches. The canonical form of memory is the model's own clause, no part of R33 (log entry 15,
DEDUCED). -/
def Obligations.EveryStepKeepsWellFormedness : Prop := ∀ s t : State, s.Inv → step s = .next t → t.Inv

/-- Every host call that is no cycle keeps the well-formedness of R33. The canonical form of memory is the model's own
clause, no part of R33 (log entry 15, DEDUCED). -/
def Obligations.HostCallsKeepWellFormedness : Prop :=
  ∀ (s : State), s.Inv →
    (∀ k pressed, (s.setKey k pressed).1.Inv) ∧ (∀ flags, (s.setAllKeys flags).Inv) ∧ s.consumeRedraw.2.Inv ∧
    ∀ rom, (s.loadRom rom).1.Inv

/-- R33: every state reachable from construction by cycles and host calls has its pieces in range. R33 is marked by
the spec as its own inference. -/
def Obligations.EveryReachableStateIsWellFormed : Prop :=
  ∀ (cfg : Config) (s : State), Reachable cfg s →
    s.i.toNat ≤ 4095 ∧ s.sp.val ≤ 16 ∧ s.romSize ≤ 3584 ∧ (∀ y, (s.v y).toNat ≤ 255) ∧ s.dt.toNat ≤ 255 ∧
    s.st.toNat ≤ 255 ∧ (∀ a, (s.readByte a).toNat ≤ 255) ∧ s.pc.toNat ≤ 0x10FE ∧ (∀ k, (s.entry k).toNat ≤ 0x1000)

/-- Memories in canonical form that read alike are equal data. The canonical form is the model's own representation
(log entry 15). -/
def Obligations.EqualReadsAreEqualMemories : Prop :=
  ∀ s t : State, s.Inv → t.Inv → s.config.font = t.config.font → (∀ a, a < 4096 → s.readByte a = t.readByte a) →
    s.mem = t.mem

/-- No instruction writes a part of the state that the spec does not list among what it writes. The table of parts is
`instrWrites`, over all 34 instructions. -/
def Obligations.InstructionsWriteOnlyTheirParts : Prop :=
  ∀ (i : Instr) (s t : State), exec i s = .next t → KeepsAllBut (instrWrites i) s t

/-- No cycle sets a key, changes L or the parameters, clears `redraw`, or loses an entry of the sticky record. The
parameters in the state and the record are the model's fields (log entries 1 and 4). -/
def Obligations.StepLeavesTheHostsStateAlone : Prop :=
  ∀ s t : State, step s = .next t →
    SamePart .keys s t ∧ SamePart .romSize s t ∧ SamePart .config s t ∧ (s.redraw = true → t.redraw = true) ∧
    ∃ l, t.faults = s.faults ++ l ∧ l.length ≤ 1

/-- VF changes only under a flag-writing instruction or as the destination register. -/
def Obligations.OnlyFlagWritersAndDestinationsChangeVF : Prop :=
  ∀ (i : Instr) (s t : State), exec i s = .next t → t.v 0xF#4 ≠ s.v 0xF#4 →
    (∃ x y, i = .addReg x y ∨ i = .subReg x y ∨ i = .shr x y ∨ i = .subnReg x y ∨ i = .shl x y) ∨
    (∃ x y n, i = .drw x y n) ∨
    (∃ nn, i = .ldImm 0xF#4 nn ∨ i = .addImm 0xF#4 nn ∨ i = .rnd 0xF#4 nn) ∨
    (∃ y, i = .ldReg 0xF#4 y ∨ i = .orReg 0xF#4 y ∨ i = .andReg 0xF#4 y ∨ i = .xorReg 0xF#4 y) ∨
    i = .ldVxDt 0xF#4 ∨ i = .ldVxK 0xF#4 ∨ i = .ldRegs 0xF#4

/-- No instruction reads ST, `redraw` or L: changing them changes nothing else of the outcome. -/
def Obligations.ProgramsCannotReadHostOutputs : Prop :=
  ∀ (i : Instr) (s : State) (b : Byte) (r : Bool) (l : Nat),
    (∀ t, exec i s = .next t →
      ∃ u, exec i { s with st := b, redraw := r, romSize := l } = .next u ∧
        KeepsAllBut [.st, .redraw, .romSize] t u) ∧
    ∀ f, exec i s = .fault f → exec i { s with st := b, redraw := r, romSize := l } = .fault f

/-- Only Ex9E, ExA1 and Fx0A read the keypad: under any other instruction the keys change nothing. -/
def Obligations.OnlyKeyInstructionsReadKeys : Prop :=
  ∀ (i : Instr) (s : State) (ks : Vector Bool 16),
    (∀ x, i ≠ .skp x ∧ i ≠ .sknp x ∧ i ≠ .ldVxK x) →
    (∀ t, exec i s = .next t → ∃ u, exec i { s with keys := ks } = .next u ∧ KeepsAllBut [.keys] t u) ∧
    ∀ f, exec i s = .fault f → exec i { s with keys := ks } = .fault f

/-- An execute step ends undefined exactly in the three cases of R124, each with its kind, and is never refused. The
three cases are the spec's decisions D9 to D11 and D27 (log entry 8). -/
def Obligations.UndefinedOutcomesAreTheThreeCases : Prop :=
  ∀ (i : Instr) (s : State),
    (∀ f, exec i s = .fault f ↔
      (f = .spriteReadOutOfRange ∧ ∃ x y n, i = .drw x y n ∧ 0 < min n.toNat (32 - (s.v y).toNat % 32) ∧
        s.i.toNat + min n.toNat (32 - (s.v y).toNat % 32) - 1 > 4095) ∨
      (f = .bcdWriteOutOfRange ∧ ∃ x, i = .ldBVx x ∧ s.i.toNat + 2 > 4095) ∨
      (f = .keyIndexOutOfRange ∧ ∃ x, (i = .skp x ∨ i = .sknp x) ∧ (s.v x).toNat ≥ 16)) ∧
    ∀ r, exec i s ≠ .refused r

/-- An execute step ends fatal exactly in the cases of R124, each with its kind. The block-transfer bound is the
spec's decision D8 (log entry 10), and the report is the model's field (log entry 4). -/
def Obligations.FatalOutcomesHaveTheirCauses : Prop :=
  ∀ (i : Instr) (s : State) (k : FatalKind), s.outcome.isFatal = false →
    ((∃ t, exec i s = .next t ∧ t.outcome = .fatal k) ↔
      (k = .stackOverflow ∧ (∃ nnn, i = .call nnn) ∧ s.sp.val = 16) ∨
      (k = .stackUnderflow ∧ i = .ret ∧ s.sp.val = 0) ∨
      (k = .blockTransferOutOfRange ∧ ∃ x, (i = .stRegs x ∨ i = .ldRegs x) ∧ s.i.toNat + x.toNat > 4095))

/-! ### Encoding -/

/-- Decoding the word of an instruction gives the instruction back, with every operand at every value. -/
def Obligations.DecodeOfEncodeIsTheInstruction : Prop :=
  ∀ i : Instr, decode (encode i) = .ok i ∧ decodeTableWord 16 (encode i).toNat = some i

/-- A word that decodes is the word of the instruction it decodes to: no bit is dropped and no two instructions share a
word. -/
def Obligations.EncodeOfDecodeIsTheWord : Prop := ∀ (w : Word) (i : Instr), decode w = .ok i → encode i = w

/-- The decoder accepts exactly the words that some row of the opcode map matches, and rejects every other word as an
unknown opcode. -/
def Obligations.DecoderAcceptsExactlyTheOpcodeMap : Prop :=
  ∀ w : Word, ((∃ i, decode w = .ok i) ↔ wordWellFormed w = true) ∧
    (wordWellFormed w = false → decode w = .error (.unknownOpcode w))

/-- Words written out from the opcode map decode to their instructions; the last three are unknown opcodes. -/
def Obligations.SampleWordsDecode : Prop :=
  decode 0b0000000011100000#16 = .ok .cls ∧ decode 0b0001001000110100#16 = .ok (.jp 0x234#12) ∧
  decode 0b1000001000110110#16 = .ok (.shr 0x2#4 0x3#4) ∧ decode 0b1101000100100101#16 = .ok (.drw 0x1#4 0x2#4 0x5#4) ∧
  decode 0b1110000110011110#16 = .ok (.skp 0x1#4) ∧ decode 0b1111001001100101#16 = .ok (.ldRegs 0x2#4) ∧
  decode 0b0101000100100001#16 = .error (.unknownOpcode 0x5121#16) ∧
  decode 0b1000000000001000#16 = .error (.unknownOpcode 0x8008#16) ∧
  decode 0b0000000100100011#16 = .error (.unknownOpcode 0x0123#16)

/-! ### The cycle -/

/-- When the checks of the fetch pass and the two bytes at pc, big-endian, decode to `i`, the step executes `i` in the
state with pc advanced by 2 and no condition noted; a completion that is not fatal is followed by one tick of both
timers, a fatal one by nothing, and an undefined one ends the step. The report, cleared before exec, is the model's
field (log entry 4). -/
def Obligations.StepRunsTheDecodedInstruction : Prop :=
  ∀ (s : State) (i : Instr), s.pc.toNat + 1 ≤ 4095 →
    (s.config.romEndCheck = true → s.pc.toNat < 0x200 + s.romSize) →
    decode (wordOfBytes (s.readByte s.pc.toNat) (s.readByte (s.pc.toNat + 1))) = .ok i →
    (∀ t, exec i { s with pc := s.pc + 2#16, outcome := .ok [] } = .next t → t.outcome.isFatal = false →
      ∃ u, step s = .next u ∧ KeepsAllBut [.dt, .st] t u ∧ u.dt.toNat = t.dt.toNat - 1 ∧ u.st.toNat = t.st.toNat - 1) ∧
    (∀ t, exec i { s with pc := s.pc + 2#16, outcome := .ok [] } = .next t → t.outcome.isFatal = true →
      step s = .next t) ∧
    ∀ f, exec i { s with pc := s.pc + 2#16, outcome := .ok [] } = .fault f → step s = .fault f

/-- R62: a fetch that would need a byte past address 4095 ends the cycle fatally and changes no state. The state `u`
is `s` itself, or what a cycle that ended so has left of it (the `t` of the conclusion is again such a `u`), so every
later cycle ends the same way. No other cycle ends so. That the fault is recorded in order is the spec's decision D2,
and the record and the report are the model's fields (log entry 4, DESIGN CHOICE). -/
def Obligations.FetchPastMemoryIsFatal : Prop :=
  ∀ s : State,
    (s.pc.toNat + 1 > 4095 → ∀ u : State, KeepsAllBut [.outcome, .faults] s u →
      ∃ t, step u = .next t ∧ KeepsAllBut [.outcome, .faults] s t ∧ KeepsAllBut [.outcome, .faults] u t ∧
        t.outcome = .fatal .fetchOutOfRange ∧ t.faults = u.faults ++ [.fetchOutOfRange]) ∧
    (s.pc.toNat + 1 ≤ 4095 → ∀ t, step s = .next t → t.outcome ≠ .fatal .fetchOutOfRange)

/-- R63: with `P_ROM_END_CHECK` true, a fetch that passes the bound at pc >= 0x200 + L ends the cycle fatally and
changes no state; with it false, or below that end, no cycle ends so. The rule is the spec's decision D3, an open
parameter (log entry 1). That the fault is recorded in order is the spec's decision D2, and the record and the report
are the model's fields (log entry 4, DESIGN CHOICE). -/
def Obligations.FetchPastRomIsFatalOnlyWhenChecked : Prop :=
  ∀ s : State,
    (s.config.romEndCheck = true → s.pc.toNat + 1 ≤ 4095 → s.pc.toNat ≥ 0x200 + s.romSize →
      ∃ t, step s = .next t ∧ KeepsAllBut [.outcome, .faults] s t ∧ t.outcome = .fatal .fetchPastRom ∧
        t.faults = s.faults ++ [.fetchPastRom]) ∧
    (s.config.romEndCheck = false ∨ s.pc.toNat < 0x200 + s.romSize →
      ∀ t, step s = .next t → t.outcome ≠ .fatal .fetchPastRom)

/-- R59: a word no row of the opcode map matches is noted and changes nothing; pc keeps the advance, the timers tick. -/
def Obligations.UnknownOpcodeOnlyAdvancesAndTicks : Prop :=
  ∀ s : State, s.pc.toNat + 1 ≤ 4095 → (s.config.romEndCheck = true → s.pc.toNat < 0x200 + s.romSize) →
    wordWellFormed (wordOfBytes (s.readByte s.pc.toNat) (s.readByte (s.pc.toNat + 1))) = false →
    ∃ t, step s = .next t ∧ KeepsAllBut [.pc, .dt, .st, .outcome] s t ∧ t.pc.toNat = s.pc.toNat + 2 ∧
      t.dt.toNat = s.dt.toNat - 1 ∧ t.st.toNat = s.st.toNat - 1 ∧ t.outcome = .ok [.unknownOpcode]

/-- R69: a cycle that ends with a fatal fetch condition leaves the state as it was; one that ends with a fatal execute
condition keeps the pc advance and changes nothing else; neither ticks. That the advance stays is the spec's decision
D1 (log entry 9). That the fault is recorded in order is the spec's decision D2, and the record and the report are the
model's fields (log entry 4, DESIGN CHOICE). -/
def Obligations.FatalCycleKeepsOnlyTheAdvance : Prop :=
  ∀ (s t : State) (k : FatalKind), step s = .next t → t.outcome = .fatal k →
    t.faults = s.faults ++ [k] ∧
    ((k = .fetchOutOfRange ∨ k = .fetchPastRom) → KeepsAllBut [.outcome, .faults] s t) ∧
    ((k = .stackOverflow ∨ k = .stackUnderflow ∨ k = .blockTransferOutOfRange) →
      t.pc.toNat = s.pc.toNat + 2 ∧ KeepsAllBut [.pc, .outcome, .faults] s t)

/-- R67, R69, R146: every cycle that does not end fatally ticks both timers once, a timer written in the same cycle
included; a fatal one ticks neither. How the cycle ended is read from the report, the model's field (log entry 4). -/
def Obligations.EveryCompletedCycleTicksTheTimers : Prop :=
  ∀ s t : State, step s = .next t →
    (t.outcome.isFatal = true → t.dt = s.dt ∧ t.st = s.st) ∧
    (t.outcome.isFatal = false →
      (∀ x, decode (wordOfBytes (s.readByte s.pc.toNat) (s.readByte (s.pc.toNat + 1))) = .ok (.ldDtVx x) →
        t.dt.toNat = (s.v x).toNat - 1 ∧ t.st.toNat = s.st.toNat - 1) ∧
      (∀ x, decode (wordOfBytes (s.readByte s.pc.toNat) (s.readByte (s.pc.toNat + 1))) = .ok (.ldStVx x) →
        t.st.toNat = (s.v x).toNat - 1 ∧ t.dt.toNat = s.dt.toNat - 1) ∧
      ((∀ x, decode (wordOfBytes (s.readByte s.pc.toNat) (s.readByte (s.pc.toNat + 1))) ≠ .ok (.ldDtVx x) ∧
          decode (wordOfBytes (s.readByte s.pc.toNat) (s.readByte (s.pc.toNat + 1))) ≠ .ok (.ldStVx x)) →
        t.dt.toNat = s.dt.toNat - 1 ∧ t.st.toNat = s.st.toNat - 1))

/-- The word placed by `withFetchWord` is the one the very next step fetches and executes. withFetchWord is the
model's stand-in for the ROM load (log entry 5). -/
def Obligations.PlacedWordIsTheNextInstruction : Prop :=
  ∀ (s : State) (i : Instr), s.Inv →
    ∃ p : State, p = s.withFetchWord 16 (encode i).toNat ∧ p.Inv ∧ step p = finishCycle (exec i p.advance)

/-- The ends of a run (R152) and the idle loop after its good end. A run of the host's calls ends at the FIRST of its
cycle boundaries that is an end, good, fatal or undefined: it went on at every call before the cycle that ends it, and
the calls after do not matter. At a state that meets case 1 and whose fetch passes its checks, a further cycle changes only DT and
ST, reports `Ok` with no condition, and meets case 1 again. R152 is the spec's decision D22; how a run is written down is
the model's (log entry 17), and the report is the model's field (log entry 4). R152 says nothing about a run the host
interrupts with a ROM load: that such a run goes on through the load, and ends by the same cases at a later cycle's
boundary, is the model's choice (log entry 17, DESIGN CHOICE). -/
def Obligations.SelfJumpChangesOnlyTheTimers : Prop :=
  (∀ (cs : List HostCall) (s t : State), runCalls cs s = .good t ↔
    ∃ pre post u, cs = pre ++ .runCycle :: post ∧ runCalls pre s = .running u ∧ step u = .next t ∧ t.goodEnd) ∧
  (∀ (cs : List HostCall) (s t : State) (k : FatalKind), runCalls cs s = .fatal k t ↔
    ∃ pre post u, cs = pre ++ .runCycle :: post ∧ runCalls pre s = .running u ∧ step u = .next t ∧
      t.outcome = .fatal k) ∧
  (∀ (cs : List HostCall) (s : State) (f : Fault), runCalls cs s = .undefined f ↔
    ∃ pre post u, cs = pre ++ .runCycle :: post ∧ runCalls pre s = .running u ∧ step u = .fault f) ∧
  ∀ s : State, s.goodEnd → (s.config.romEndCheck = true → s.pc.toNat < 0x200 + s.romSize) →
    ∃ t, step s = .next t ∧ KeepsAllBut [.dt, .st, .outcome] s t ∧ t.outcome = .ok [] ∧
      t.dt.toNat = s.dt.toNat - 1 ∧ t.st.toNat = s.st.toNat - 1 ∧ t.goodEnd

/-! ### Control transfer -/

/-- R77, R83: 1nnn jumps to nnn; Bnnn jumps to V0 + nnn, not reduced; and their encodings. -/
def Obligations.JumpsSetPc : Prop :=
  DecodesRow 0xF000#16 0x1000#16 (fun w => .jp (fieldNnn w)) ∧
  DecodesRow 0xF000#16 0xB000#16 (fun w => .jpV0 (fieldNnn w)) ∧
  ∀ (s : State) (nnn : Addr12),
    (∃ t, exec (.jp nnn) s = .next t ∧ t.pc.toNat = nnn.toNat ∧ KeepsAllBut [.pc] s t) ∧
    ∃ t, exec (.jpV0 nnn) s = .next t ∧ t.pc.toNat = (s.v 0x0#4).toNat + nnn.toNat ∧ KeepsAllBut [.pc] s t

/-- R78: CALL pushes pc, the return address, and jumps; at depth 16 it is fatal and changes nothing. What a fatal CALL
leaves is the spec's decision D1 (log entry 9). That the fault is recorded in order is the spec's decision D2, and the
record and the report are the model's fields (log entry 4, DESIGN CHOICE). -/
def Obligations.CallPushesTheReturnAddress : Prop :=
  ∀ (s : State) (nnn : Addr12),
    (∀ k : Fin 16, k.val = s.sp.val → ∃ t, exec (.call nnn) s = .next t ∧ t.entry k = s.pc ∧
      (∀ j, j ≠ k → t.entry j = s.entry j) ∧ t.sp.val = s.sp.val + 1 ∧ t.pc.toNat = nnn.toNat ∧
      KeepsAllBut [.pc, .stack, .sp] s t) ∧
    (s.sp.val = 16 → ∃ t, exec (.call nnn) s = .next t ∧ t.outcome = .fatal .stackOverflow ∧
      t.faults = s.faults ++ [.stackOverflow] ∧ KeepsAllBut [.outcome, .faults] s t)

/-- R76: RET decrements SP and jumps to the entry there, which keeps its value; on an empty stack it is fatal and
changes nothing. That the popped entry keeps its value is the spec's decision D26 (log entry 10); what a fatal RET
leaves is D1 (log entry 9). That the fault is recorded in order is the spec's decision D2, and the record and the
report are the model's fields (log entry 4, DESIGN CHOICE). -/
def Obligations.RetPopsTheReturnAddress : Prop :=
  ∀ s : State,
    (∀ k : Fin 16, k.val + 1 = s.sp.val → ∃ t, exec .ret s = .next t ∧ t.pc = s.entry k ∧ t.sp.val = k.val ∧
      KeepsAllBut [.pc, .sp] s t) ∧
    (s.sp.val = 0 → ∃ t, exec .ret s = .next t ∧ t.outcome = .fatal .stackUnderflow ∧
      t.faults = s.faults ++ [.stackUnderflow] ∧ KeepsAllBut [.outcome, .faults] s t)

/-- A call below depth 16 and a return at the depth it left bring back pc and SP, whatever the subroutine did to the
rest of the state but the stack. -/
def Obligations.ReturnUndoesCall : Prop :=
  ∀ (s t t' : State) (nnn : Addr12), s.sp.val < 16 → exec (.call nnn) s = .next t →
    SamePart .stack t t' → SamePart .sp t t' →
    ∃ u, exec .ret t' = .next u ∧ u.pc = s.pc ∧ u.sp = s.sp ∧ KeepsAllBut [.pc, .sp] t' u

/-- R79, R80: SE and SNE with an immediate, and their encodings. -/
def Obligations.ImmediateSkips : Prop :=
  DecodesRow 0xF000#16 0x3000#16 (fun w => .seImm (fieldX w) (fieldNn w)) ∧
  DecodesRow 0xF000#16 0x4000#16 (fun w => .sneImm (fieldX w) (fieldNn w)) ∧
  ∀ (s : State) (x : Nibble) (nn : Byte),
    (∃ t, exec (.seImm x nn) s = .next t ∧ t.pc = (if (s.v x).toNat = nn.toNat then s.pc + 2#16 else s.pc) ∧
      KeepsAllBut [.pc] s t) ∧
    ∃ t, exec (.sneImm x nn) s = .next t ∧ t.pc = (if (s.v x).toNat = nn.toNat then s.pc else s.pc + 2#16) ∧
      KeepsAllBut [.pc] s t

/-- R81, R82: SE and SNE with two registers, and their encodings (the exact low nibble is D16). The exact low nibble 0
is the spec's decision D16 (log entry 10). -/
def Obligations.RegisterSkips : Prop :=
  DecodesRow 0xF00F#16 0x5000#16 (fun w => .seReg (fieldX w) (fieldY w)) ∧
  DecodesRow 0xF00F#16 0x9000#16 (fun w => .sneReg (fieldX w) (fieldY w)) ∧
  ∀ (s : State) (x y : Nibble),
    (∃ t, exec (.seReg x y) s = .next t ∧ t.pc = (if (s.v x).toNat = (s.v y).toNat then s.pc + 2#16 else s.pc) ∧
      KeepsAllBut [.pc] s t) ∧
    ∃ t, exec (.sneReg x y) s = .next t ∧ t.pc = (if (s.v x).toNat = (s.v y).toNat then s.pc else s.pc + 2#16) ∧
      KeepsAllBut [.pc] s t

/-! ### Loads, arithmetic and logic -/

/-- R87, R88: 6xnn loads nn; 7xnn adds nn modulo 256 and writes no flag; and their encodings. -/
def Obligations.ImmediateLoadAndAdd : Prop :=
  DecodesRow 0xF000#16 0x6000#16 (fun w => .ldImm (fieldX w) (fieldNn w)) ∧
  DecodesRow 0xF000#16 0x7000#16 (fun w => .addImm (fieldX w) (fieldNn w)) ∧
  ∀ (s : State) (x : Nibble) (nn : Byte),
    (∃ t, exec (.ldImm x nn) s = .next t ∧ t.v x = nn ∧ KeepsRegsBut [x] s t ∧ KeepsAllBut [.regs] s t) ∧
    ∃ t, exec (.addImm x nn) s = .next t ∧ (t.v x).toNat = ((s.v x).toNat + nn.toNat) % 256 ∧
      KeepsRegsBut [x] s t ∧ KeepsAllBut [.regs] s t

/-- R89 to R92: copy, or, and, exclusive or, bit by bit; no flag is written. That VF is untouched is the spec's
decision D5 (log entry 10). -/
def Obligations.CopyAndLogic : Prop :=
  ∀ (s : State) (x y : Nibble),
    (∃ t, exec (.ldReg x y) s = .next t ∧ t.v x = s.v y ∧ KeepsRegsBut [x] s t ∧ KeepsAllBut [.regs] s t) ∧
    (∃ t, exec (.orReg x y) s = .next t ∧
      (∀ b, (t.v x).getLsbD b = ((s.v x).getLsbD b || (s.v y).getLsbD b)) ∧ KeepsRegsBut [x] s t ∧
      KeepsAllBut [.regs] s t) ∧
    (∃ t, exec (.andReg x y) s = .next t ∧
      (∀ b, (t.v x).getLsbD b = ((s.v x).getLsbD b && (s.v y).getLsbD b)) ∧ KeepsRegsBut [x] s t ∧
      KeepsAllBut [.regs] s t) ∧
    ∃ t, exec (.xorReg x y) s = .next t ∧
      (∀ b, (t.v x).getLsbD b = ((s.v x).getLsbD b ^^ (s.v y).getLsbD b)) ∧ KeepsRegsBut [x] s t ∧
      KeepsAllBut [.regs] s t

/-- R93 and R86 under `SEQ_FLAG_FIRST`: the carry of the original operands goes to VF first, then Vx takes the sum
modulo 256 of the registers as they then stand (an operand VF is the flag). The order is the open parameter
P_ALU_SELFREF, the spec's decision D4 (log entries 1 and 2). -/
def Obligations.AddWritesCarryThenSum : Prop :=
  ∀ (s : State) (x y : Nibble) (f a b : Nat), s.config.aluSelfRef = .seqFlagFirst →
    f = (if (s.v x).toNat + (s.v y).toNat > 255 then 1 else 0) →
    a = (if x = 0xF#4 then f else (s.v x).toNat) → b = (if y = 0xF#4 then f else (s.v y).toNat) →
    ∃ t, exec (.addReg x y) s = .next t ∧ (t.v x).toNat = (a + b) % 256 ∧ (x ≠ 0xF#4 → (t.v 0xF#4).toNat = f) ∧
      KeepsRegsBut [x, 0xF#4] s t ∧ KeepsAllBut [.regs] s t

/-- R94, R96 and R86 under `SEQ_FLAG_FIRST`: the strict not-borrow of the original operands goes to VF first, then Vx
takes the difference modulo 256 of the registers as they then stand. The order is the open parameter P_ALU_SELFREF,
the spec's decision D4 (log entries 1 and 2). -/
def Obligations.SubtractionsWriteNotBorrowThenDifference : Prop :=
  ∀ (s : State) (x y : Nibble), s.config.aluSelfRef = .seqFlagFirst →
    (∀ f a b : Nat, f = (if (s.v x).toNat > (s.v y).toNat then 1 else 0) →
      a = (if x = 0xF#4 then f else (s.v x).toNat) → b = (if y = 0xF#4 then f else (s.v y).toNat) →
      ∃ t, exec (.subReg x y) s = .next t ∧ (t.v x).toNat = (256 + a - b) % 256 ∧
        (x ≠ 0xF#4 → (t.v 0xF#4).toNat = f) ∧ KeepsRegsBut [x, 0xF#4] s t ∧ KeepsAllBut [.regs] s t) ∧
    ∀ f a b : Nat, f = (if (s.v y).toNat > (s.v x).toNat then 1 else 0) →
      a = (if x = 0xF#4 then f else (s.v x).toNat) → b = (if y = 0xF#4 then f else (s.v y).toNat) →
      ∃ t, exec (.subnReg x y) s = .next t ∧ (t.v x).toNat = (256 + b - a) % 256 ∧
        (x ≠ 0xF#4 → (t.v 0xF#4).toNat = f) ∧ KeepsRegsBut [x, 0xF#4] s t ∧ KeepsAllBut [.regs] s t

/-- R95, R97 and R86 under `SEQ_FLAG_FIRST`: the bit shifted out of the original Vx goes to VF first, then Vx as it
then stands is shifted by one; Vy does not matter. The order is the open parameter P_ALU_SELFREF, the spec's decision
D4 (log entries 1 and 2). -/
def Obligations.ShiftsWriteTheBitShiftedOut : Prop :=
  ∀ (s : State) (x y : Nibble), s.config.aluSelfRef = .seqFlagFirst →
    (∀ f a : Nat, f = (s.v x).toNat % 2 → a = (if x = 0xF#4 then f else (s.v x).toNat) →
      ∃ t, exec (.shr x y) s = .next t ∧ (t.v x).toNat = a / 2 ∧ (x ≠ 0xF#4 → (t.v 0xF#4).toNat = f) ∧
        KeepsRegsBut [x, 0xF#4] s t ∧ KeepsAllBut [.regs] s t) ∧
    ∀ f a : Nat, f = (s.v x).toNat / 128 → a = (if x = 0xF#4 then f else (s.v x).toNat) →
      ∃ t, exec (.shl x y) s = .next t ∧ (t.v x).toNat = 2 * a % 256 ∧ (x ≠ 0xF#4 → (t.v 0xF#4).toNat = f) ∧
        KeepsRegsBut [x, 0xF#4] s t ∧ KeepsAllBut [.regs] s t

/-- R86 under `LATCHED_FLAG_LAST`: the final VF is always the flag of the original operands, and Vx for x other than F
is the result of the original operands. The order is the open parameter P_ALU_SELFREF, the spec's decision D4 (log
entries 1 and 2). -/
def Obligations.LatchedOrderWritesVFLast : Prop :=
  ∀ (s : State) (x y : Nibble), s.config.aluSelfRef = .latchedFlagLast →
    (∃ t, exec (.addReg x y) s = .next t ∧
      (t.v 0xF#4).toNat = (if (s.v x).toNat + (s.v y).toNat > 255 then 1 else 0) ∧
      (x ≠ 0xF#4 → (t.v x).toNat = ((s.v x).toNat + (s.v y).toNat) % 256) ∧
      KeepsRegsBut [x, 0xF#4] s t ∧ KeepsAllBut [.regs] s t) ∧
    (∃ t, exec (.subReg x y) s = .next t ∧
      (t.v 0xF#4).toNat = (if (s.v x).toNat > (s.v y).toNat then 1 else 0) ∧
      (x ≠ 0xF#4 → (t.v x).toNat = (256 + (s.v x).toNat - (s.v y).toNat) % 256) ∧
      KeepsRegsBut [x, 0xF#4] s t ∧ KeepsAllBut [.regs] s t) ∧
    (∃ t, exec (.shr x y) s = .next t ∧ (t.v 0xF#4).toNat = (s.v x).toNat % 2 ∧
      (x ≠ 0xF#4 → (t.v x).toNat = (s.v x).toNat / 2) ∧
      KeepsRegsBut [x, 0xF#4] s t ∧ KeepsAllBut [.regs] s t) ∧
    (∃ t, exec (.subnReg x y) s = .next t ∧
      (t.v 0xF#4).toNat = (if (s.v y).toNat > (s.v x).toNat then 1 else 0) ∧
      (x ≠ 0xF#4 → (t.v x).toNat = (256 + (s.v y).toNat - (s.v x).toNat) % 256) ∧
      KeepsRegsBut [x, 0xF#4] s t ∧ KeepsAllBut [.regs] s t) ∧
    ∃ t, exec (.shl x y) s = .next t ∧ (t.v 0xF#4).toNat = (s.v x).toNat / 128 ∧
      (x ≠ 0xF#4 → (t.v x).toNat = 2 * (s.v x).toNat % 256) ∧
      KeepsRegsBut [x, 0xF#4] s t ∧ KeepsAllBut [.regs] s t

/-- The order matters only when VF is an operand: two states that differ only in `P_ALU_SELFREF` run one of the five
instructions alike when neither x nor y is F. -/
def Obligations.OrderMattersOnlyForVF : Prop :=
  ∀ (s : State) (o : AluSelfRef) (x y : Nibble) (i : Instr), x ≠ 0xF#4 → y ≠ 0xF#4 →
    (i = .addReg x y ∨ i = .subReg x y ∨ i = .shr x y ∨ i = .subnReg x y ∨ i = .shl x y) →
    ∃ t u, exec i s = .next t ∧ exec i { s with config := { s.config with aluSelfRef := o } } = .next u ∧
      KeepsAllBut [.config] t u

/-- R98: Vx takes the draw of this execution under the mask nn, and each execution takes a fresh draw. The draw is the
free value `Config.rndDraw` (notes/assumptions/3.md): the statement holds whatever it is. The form of the draw is the
model's (log entry 3). -/
def Obligations.RandomByteUnderMask : Prop :=
  ∀ (s : State) (x : Nibble) (nn : Byte),
    ∃ t, exec (.rnd x nn) s = .next t ∧ t.v x = Config.rndDraw s.draws &&& nn ∧
      (∀ b, nn.getLsbD b = false → (t.v x).getLsbD b = false) ∧ t.draws = s.draws + 1 ∧ KeepsRegsBut [x] s t ∧
      KeepsAllBut [.regs, .draws] s t

/-! ### Index register and memory transfer -/

/-- R99: Annn loads I, and its encoding. -/
def Obligations.LoadIndex : Prop :=
  DecodesRow 0xF000#16 0xA000#16 (fun w => .ldI (fieldNnn w)) ∧
  ∀ (s : State) (nnn : Addr12), ∃ t, exec (.ldI nnn) s = .next t ∧ t.i.toNat = nnn.toNat ∧ KeepsAllBut [.i] s t

/-- R100: Fx1E adds Vx to I; a sum above 4095 is noted and resets I to 0. VF is unchanged. The threshold and the
untouched VF are the spec's decision D6 (log entry 10). -/
def Obligations.AddToIndex : Prop :=
  ∀ (s : State) (x : Nibble),
    (s.i.toNat + (s.v x).toNat ≤ 4095 → ∃ t, exec (.addIVx x) s = .next t ∧
      t.i.toNat = s.i.toNat + (s.v x).toNat ∧ KeepsAllBut [.i] s t) ∧
    (s.i.toNat + (s.v x).toNat > 4095 → ∃ t, exec (.addIVx x) s = .next t ∧ t.i.toNat = 0 ∧
      (∀ ds, s.outcome = .ok ds → t.outcome = .ok (ds ++ [.indexOverflow])) ∧ KeepsAllBut [.i, .outcome] s t)

/-- R101: Fx29 points I at the glyph of a digit; a byte of 16 or more is noted and resets I to 0; and its encoding. -/
def Obligations.PointIndexAtGlyph : Prop :=
  DecodesRow 0xF0FF#16 0xF029#16 (fun w => .ldFVx (fieldX w)) ∧
  ∀ (s : State) (x : Nibble),
    ((s.v x).toNat < 16 → ∃ t, exec (.ldFVx x) s = .next t ∧ t.i.toNat = 0x050 + 5 * (s.v x).toNat ∧
      KeepsAllBut [.i] s t) ∧
    ((s.v x).toNat ≥ 16 → ∃ t, exec (.ldFVx x) s = .next t ∧ t.i.toNat = 0 ∧
      (∀ ds, s.outcome = .ok ds → t.outcome = .ok (ds ++ [.fontDigitOutOfRange])) ∧ KeepsAllBut [.i, .outcome] s t)

/-- R102: Fx33 stores the hundreds, tens and units of Vx at I, I+1, I+2, and ends undefined when I + 2 > 4095. The
unchanged I is the spec's decision D7 (log entry 10), the fault D10 (log entry 8). -/
def Obligations.StoreDecimalDigits : Prop :=
  ∀ (s : State) (x : Nibble), s.Inv →
    (s.indexAddr + 2 ≤ 4095 → ∃ t, exec (.ldBVx x) s = .next t ∧
      (t.readByte s.indexAddr).toNat = (s.v x).toNat / 100 ∧
      (t.readByte (s.indexAddr + 1)).toNat = (s.v x).toNat / 10 % 10 ∧
      (t.readByte (s.indexAddr + 2)).toNat = (s.v x).toNat % 10 ∧
      (∀ a, a < s.indexAddr ∨ s.indexAddr + 2 < a → t.readByte a = s.readByte a) ∧ KeepsAllBut [.mem] s t) ∧
    (s.indexAddr + 2 > 4095 → exec (.ldBVx x) s = .fault .bcdWriteOutOfRange)

/-- R103: Fx55 stores V0 to Vx at I to I + x, I unchanged; when I + x > 4095 it is fatal and no byte is written. The
bound and the unchanged I are the spec's decisions D7 and D8 (log entry 10), what a fatal transfer leaves is D1 (log
entry 9). That the fault is recorded in order is the spec's decision D2, and the record and the report are the model's
fields (log entry 4, DESIGN CHOICE). -/
def Obligations.StoreRegisterBlock : Prop :=
  ∀ (s : State) (x : Nibble), s.Inv →
    (s.indexAddr + x.toNat ≤ 4095 → ∃ t, exec (.stRegs x) s = .next t ∧
      (∀ k : Nibble, k.toNat ≤ x.toNat → t.readByte (s.indexAddr + k.toNat) = s.v k) ∧
      (∀ a, a < s.indexAddr ∨ s.indexAddr + x.toNat < a → t.readByte a = s.readByte a) ∧ KeepsAllBut [.mem] s t) ∧
    (s.indexAddr + x.toNat > 4095 → ∃ t, exec (.stRegs x) s = .next t ∧ t.outcome = .fatal .blockTransferOutOfRange ∧
      t.faults = s.faults ++ [.blockTransferOutOfRange] ∧ KeepsAllBut [.outcome, .faults] s t)

/-- R104: Fx65 loads V0 to Vx from I to I + x, I unchanged; when I + x > 4095 it is fatal and no register is written.
The bound and the unchanged I are the spec's decisions D7 and D8 (log entry 10), what a fatal transfer leaves is D1
(log entry 9). That the fault is recorded in order is the spec's decision D2, and the record and the report are the
model's fields (log entry 4, DESIGN CHOICE). -/
def Obligations.LoadRegisterBlock : Prop :=
  ∀ (s : State) (x : Nibble),
    (s.indexAddr + x.toNat ≤ 4095 → ∃ t, exec (.ldRegs x) s = .next t ∧
      (∀ k : Nibble, k.toNat ≤ x.toNat → t.v k = s.readByte (s.indexAddr + k.toNat)) ∧
      (∀ k : Nibble, x.toNat < k.toNat → t.v k = s.v k) ∧ KeepsAllBut [.regs] s t) ∧
    (s.indexAddr + x.toNat > 4095 → ∃ t, exec (.ldRegs x) s = .next t ∧ t.outcome = .fatal .blockTransferOutOfRange ∧
      t.faults = s.faults ++ [.blockTransferOutOfRange] ∧ KeepsAllBut [.outcome, .faults] s t)

/-- A block stored by Fx55 and loaded by Fx65 with the same x and I, memory unchanged in between, brings V0 to Vx
back. -/
def Obligations.BlockLoadUndoesBlockStore : Prop :=
  ∀ (s t t' : State) (x : Nibble), s.Inv → s.indexAddr + x.toNat ≤ 4095 → exec (.stRegs x) s = .next t →
    SamePart .mem t t' → SamePart .i t t' →
    ∃ u, exec (.ldRegs x) t' = .next u ∧ ∀ k : Nibble, k.toNat ≤ x.toNat → u.v k = s.v k

/-- Code written by Fx55 is what a later fetch reads: with pc at I + k, the next word fetched is Vk, V(k+1). -/
def Obligations.StoredBytesAreFetched : Prop :=
  ∀ (s : State) (x k k' : Nibble), s.Inv → s.indexAddr + x.toNat ≤ 4095 → k'.toNat = k.toNat + 1 →
    k'.toNat ≤ x.toNat →
    ∃ t, exec (.stRegs x) s = .next t ∧ ∀ t' : State, SamePart .mem t t' → t'.pc.toNat = s.indexAddr + k.toNat →
      t'.fetchWord.toNat = (s.v k).toNat * 256 + (s.v k').toNat

/-! ### Display -/

/-- R105: CLS clears every pixel and sets `redraw`. That CLS sets redraw is the spec's decision D15 (log entry 10). -/
def Obligations.ClearScreen : Prop :=
  ∀ s : State, ∃ t, exec .cls s = .next t ∧ (∀ c r, t.pixel c r = false) ∧ t.redraw = true ∧
    KeepsAllBut [.fb, .redraw] s t

/-- R106 to R114: DRW lays the drawn rows of the sprite over the framebuffer by XOR, wrapping horizontally and
clipping vertically, sets VF to 1 exactly when a sprite bit 1 fell on a pixel 1 and else to 0, and sets `redraw`. The
bit order is the spec's decision D12 (log entry 7), the position D13 and D14 (log entry 10). -/
def Obligations.DrawSpriteXorsAndReportsCollision : Prop :=
  ∀ (s : State) (x y n : Nibble) (x0 y0 rows : Nat),
    x0 = (s.v x).toNat % 64 → y0 = (s.v y).toNat % 32 → rows = min n.toNat (32 - y0) →
    (rows = 0 ∨ s.i.toNat + rows - 1 ≤ 4095) →
    ∃ t, exec (.drw x y n) s = .next t ∧
      (∀ r c, r < rows → c < 8 → t.pixel ((x0 + c) % 64) (y0 + r)
        = (s.pixel ((x0 + c) % 64) (y0 + r) ^^ (s.readByte (s.i.toNat + r)).getLsbD (7 - c))) ∧
      (∀ col row, (∀ r c, r < rows → c < 8 → ¬(col = (x0 + c) % 64 ∧ row = y0 + r)) →
        t.pixel col row = s.pixel col row) ∧
      ((∃ r c, r < rows ∧ c < 8 ∧ (s.readByte (s.i.toNat + r)).getLsbD (7 - c) = true ∧
          s.pixel ((x0 + c) % 64) (y0 + r) = true) → (t.v 0xF#4).toNat = 1) ∧
      ((∀ r c, r < rows → c < 8 → (s.readByte (s.i.toNat + r)).getLsbD (7 - c) = true →
          s.pixel ((x0 + c) % 64) (y0 + r) = false) → (t.v 0xF#4).toNat = 0) ∧
      t.redraw = true ∧ KeepsRegsBut [0xF#4] s t ∧ KeepsAllBut [.fb, .regs, .redraw] s t

/-- R115: DRW ends undefined exactly when a row to be drawn would read past address 4095. The fault is the spec's
decision D9 (log entry 8), the reduced row D13 (log entry 10). -/
def Obligations.SpritePastMemoryIsUndefined : Prop :=
  ∀ (s : State) (x y n : Nibble) (rows : Nat), rows = min n.toNat (32 - (s.v y).toNat % 32) →
    (rows > 0 → s.i.toNat + rows - 1 > 4095 → exec (.drw x y n) s = .fault .spriteReadOutOfRange) ∧
    ((rows = 0 ∨ s.i.toNat + rows - 1 ≤ 4095) → ∃ t, exec (.drw x y n) s = .next t)

/-- Two draws with the same position, height, I and drawn sprite bytes, and no other write of the framebuffer in between,
leave the framebuffer as it was before the first. The second sets VF exactly when a sprite bit 1 lies over a pixel that
was 0 before the first draw, and else clears it; so, when the first draw did not collide (a clear screen, say), the
second sets VF exactly when a drawn row has a bit 1, as R116 says; and a drawn bit 1 makes at least one of the two draws
collide. (R116 gives the last clause without the premise on the first draw: log entry 6.) Column c takes bit 7 - c by
R111, which the spec marks as general knowledge (D12, log entry 7, PRESUMED); the reduced position is the spec's decision
D13 (log entry 10). -/
def Obligations.DrawingTwiceRestoresTheFramebuffer : Prop :=
  ∀ (s t t' u : State) (x y x' y' n : Nibble) (x0 y0 rows : Nat),
    x0 = (s.v x).toNat % 64 → y0 = (s.v y).toNat % 32 → rows = min n.toNat (32 - y0) →
    exec (.drw x y n) s = .next t → exec (.drw x' y' n) t' = .next u →
    SamePart .fb t t' → t'.i = s.i → (t'.v x').toNat % 64 = x0 → (t'.v y').toNat % 32 = y0 →
    (∀ r, r < rows → t'.readByte (s.i.toNat + r) = s.readByte (s.i.toNat + r)) →
    SamePart .fb s u ∧
    ((u.v 0xF#4).toNat = 1 ↔ ∃ r c, r < rows ∧ c < 8 ∧ (s.readByte (s.i.toNat + r)).getLsbD (7 - c) = true ∧
      s.pixel ((x0 + c) % 64) (y0 + r) = false) ∧
    (u.v 0xF#4).toNat ≤ 1 ∧
    ((t.v 0xF#4).toNat = 0 →
      ((u.v 0xF#4).toNat = 1 ↔ ∃ r b, r < rows ∧ (s.readByte (s.i.toNat + r)).getLsbD b = true)) ∧
    ((t.v 0xF#4).toNat = 1 ∨ (u.v 0xF#4).toNat = 1 ↔
      ∃ r b, r < rows ∧ (s.readByte (s.i.toNat + r)).getLsbD b = true)

/-- R116 word for word: under the same premises the second draw sets VF = 1 exactly when a drawn row has a bit 1. It
FAILS where a sprite bit lies over a pixel that was set before the first draw: the first draw clears that pixel and
the second sets it again, which is no collision (R113; notes/assumptions/6.md). The last sentence of R113 fails there
too. The reduced position is the spec's decision D13 (log entry 10). -/
def Obligations.SecondDrawCollidesWheneverABitIsDrawn : Prop :=
  ∀ (s t t' u : State) (x y x' y' n : Nibble) (rows : Nat),
    rows = min n.toNat (32 - (s.v y).toNat % 32) →
    exec (.drw x y n) s = .next t → exec (.drw x' y' n) t' = .next u →
    SamePart .fb t t' → t'.i = s.i → (t'.v x').toNat % 64 = (s.v x).toNat % 64 →
    (t'.v y').toNat % 32 = (s.v y).toNat % 32 →
    (∀ r, r < rows → t'.readByte (s.i.toNat + r) = s.readByte (s.i.toNat + r)) →
    SamePart .fb s u ∧
    ((u.v 0xF#4).toNat = 1 ↔ ∃ r b, r < rows ∧ (s.readByte (s.i.toNat + r)).getLsbD b = true)

/-! ### Keypad and timers -/

/-- R117, R118: SKP and SKNP skip by the key that Vx names, and end undefined when Vx is 16 or more. The fault is the
spec's decision D11 (log entry 8). -/
def Obligations.KeySkips : Prop :=
  ∀ (s : State) (x : Nibble),
    ((s.v x).toNat < 16 →
      (∃ t, exec (.skp x) s = .next t ∧ t.pc = (if s.key (s.v x).toNat = true then s.pc + 2#16 else s.pc) ∧
        KeepsAllBut [.pc] s t) ∧
      ∃ t, exec (.sknp x) s = .next t ∧ t.pc = (if s.key (s.v x).toNat = true then s.pc else s.pc + 2#16) ∧
        KeepsAllBut [.pc] s t) ∧
    ((s.v x).toNat ≥ 16 →
      exec (.skp x) s = .fault .keyIndexOutOfRange ∧ exec (.sknp x) s = .fault .keyIndexOutOfRange)

/-- R119, R121, R122: Fx07 copies DT to Vx; Fx15 and Fx18 copy Vx to DT and to ST; and their encodings. The tick of
the same cycle is stated by EveryCompletedCycleTicksTheTimers. -/
def Obligations.TimerTransfers : Prop :=
  DecodesRow 0xF0FF#16 0xF007#16 (fun w => .ldVxDt (fieldX w)) ∧
  DecodesRow 0xF0FF#16 0xF015#16 (fun w => .ldDtVx (fieldX w)) ∧
  DecodesRow 0xF0FF#16 0xF018#16 (fun w => .ldStVx (fieldX w)) ∧
  ∀ (s : State) (x : Nibble),
    (∃ t, exec (.ldVxDt x) s = .next t ∧ t.v x = s.dt ∧ KeepsRegsBut [x] s t ∧ KeepsAllBut [.regs] s t) ∧
    (∃ t, exec (.ldDtVx x) s = .next t ∧ t.dt = s.v x ∧ KeepsAllBut [.dt] s t) ∧
    ∃ t, exec (.ldStVx x) s = .next t ∧ t.st = s.v x ∧ KeepsAllBut [.st] s t

/-- R120: Fx0A takes the lowest pressed key; with none pressed it rewinds pc by 2 and writes nothing else; and its
encoding. -/
def Obligations.WaitForKey : Prop :=
  DecodesRow 0xF0FF#16 0xF00A#16 (fun w => .ldVxK (fieldX w)) ∧
  ∀ (s : State) (x : Nibble),
    (∀ k, k < 16 → s.key k = true → (∀ j, j < k → s.key j = false) →
      ∃ t, exec (.ldVxK x) s = .next t ∧ (t.v x).toNat = k ∧ KeepsRegsBut [x] s t ∧ KeepsAllBut [.regs] s t) ∧
    ((∀ k, k < 16 → s.key k = false) →
      ∃ t, exec (.ldVxK x) s = .next t ∧ t.pc = s.pc - 2#16 ∧ KeepsAllBut [.pc] s t)

/-! ### The host interface -/

/-- R135: set key writes one flag; an index of 16 or more is signalled and changes nothing. -/
def Obligations.SetKeyWritesOneKey : Prop :=
  ∀ (s : State) (k : Nat) (p : Bool),
    (k < 16 → (s.setKey k p).2 = none ∧ (s.setKey k p).1.key k = p ∧
      (∀ j, j ≠ k → (s.setKey k p).1.key j = s.key j) ∧ KeepsAllBut [.keys] s (s.setKey k p).1) ∧
    (k ≥ 16 → s.setKey k p = (s, some .outOfRange))

/-- A polling pass sets every key to its flag and changes nothing else. The pass as 16 calls is the spec's decision
D25 (log entry 10). -/
def Obligations.PollingPassSetsEveryKey : Prop :=
  ∀ (s : State) (flags : Vector Bool 16),
    (∀ k (h : k < 16), (s.setAllKeys flags).key k = flags[k]) ∧ KeepsAllBut [.keys] s (s.setAllKeys flags)

/-- R136, R138: consume redraw returns the flag and clears it, and no other call of the host clears it; the sound flag is
ST > 0, and reading it changes nothing. -/
def Obligations.RedrawAndSoundFlags : Prop :=
  ∀ s : State, s.consumeRedraw.1 = s.redraw ∧ s.consumeRedraw.2.redraw = false ∧
    KeepsAllBut [.redraw] s s.consumeRedraw.2 ∧
    (∀ c t, hostCall c s = .next t → s.redraw = true → t.redraw = false → c = .consumeRedraw) ∧
    (s.soundFlag = true ↔ 0 < s.st.toNat) ∧ hostCall .readSound s = .next s

/-- R137: read pixel returns the pixel in range, and 0 with a signal out of range; it changes nothing. -/
def Obligations.ReadPixelInAndOutOfRange : Prop :=
  ∀ (s : State) (x y : Int),
    (∀ c r : Nat, x = c → y = r → c < 64 → r < 32 → s.readPixel x y = (s.pixel c r, none)) ∧
    (x < 0 ∨ 64 ≤ x ∨ y < 0 ∨ 32 ≤ y → s.readPixel x y = (false, some .outOfRange)) ∧
    hostCall (.readPixel x y) s = .next s

/-- R143: load ROM copies the bytes to 0x200 upward and records L, and changes nothing else; more than 3584 bytes are
refused with no change. That bytes above the ROM stay is the spec's decision D18 (log entry 10). -/
def Obligations.LoadRomCopiesAndRecordsSize : Prop :=
  ∀ (s : State) (rom : List Byte), s.Inv →
    (rom.length ≤ 3584 → (s.loadRom rom).2 = none ∧ (s.loadRom rom).1.romSize = rom.length ∧
      (∀ k (h : k < rom.length), (s.loadRom rom).1.readByte (0x200 + k) = rom[k]) ∧
      (∀ a, a < 0x200 ∨ 0x200 + rom.length ≤ a → (s.loadRom rom).1.readByte a = s.readByte a) ∧
      KeepsAllBut [.mem, .romSize] s (s.loadRom rom).1) ∧
    (rom.length > 3584 → s.loadRom rom = (s, some .romTooLarge))
end

