-- ==== Sys2Proof/Laws/Decode.lean ====
section
/-! SUPPORT. The fields of a packed word, and a word as its packed fields (spec/30_encoding.md R51). Everything goes
through the numbers the words stand for. -/

namespace Sys2Proof

/-! ### Words and fields as numbers -/

theorem toNat_append_eq {n m : Nat} (a : BitVec n) (b : BitVec m) : (a ++ b).toNat = a.toNat * 2 ^ m + b.toNat := by
  rw [BitVec.toNat_append, ← Nat.shiftLeft_add_eq_or_of_lt b.isLt, Nat.shiftLeft_eq]

theorem toNat_packNnn (op : Nibble) (nnn : Addr12) : (packNnn op nnn).toNat = op.toNat * 4096 + nnn.toNat :=
  toNat_append_eq op nnn

theorem toNat_packXNn (op x : Nibble) (nn : Byte) :
    (packXNn op x nn).toNat = op.toNat * 4096 + x.toNat * 256 + nn.toNat := by
  have h := toNat_append_eq (op ++ x) nn
  rw [toNat_append_eq op x] at h
  refine Eq.trans h ?_
  omega

theorem toNat_packXYN (op x y n : Nibble) :
    (packXYN op x y n).toNat = op.toNat * 4096 + x.toNat * 256 + y.toNat * 16 + n.toNat := by
  have h := toNat_append_eq (op ++ x ++ y) n
  rw [toNat_append_eq (op ++ x) y, toNat_append_eq op x] at h
  refine Eq.trans h ?_
  omega

theorem toNat_wordOfBytes (hi lo : Byte) : (wordOfBytes hi lo).toNat = hi.toNat * 256 + lo.toNat :=
  toNat_append_eq hi lo

theorem toNat_fieldOp (w : Word) : (fieldOp w).toNat = w.toNat / 4096 := by
  have := w.isLt
  simp only [fieldOp, BitVec.extractLsb'_toNat, Nat.shiftRight_eq_div_pow]
  omega

theorem toNat_fieldX (w : Word) : (fieldX w).toNat = w.toNat / 256 % 16 := by
  simp [fieldX, BitVec.extractLsb'_toNat, Nat.shiftRight_eq_div_pow]

theorem toNat_fieldY (w : Word) : (fieldY w).toNat = w.toNat / 16 % 16 := by
  simp [fieldY, BitVec.extractLsb'_toNat, Nat.shiftRight_eq_div_pow]

theorem toNat_fieldN (w : Word) : (fieldN w).toNat = w.toNat % 16 := by
  simp [fieldN, BitVec.extractLsb'_toNat, Nat.shiftRight_eq_div_pow]

theorem toNat_fieldNn (w : Word) : (fieldNn w).toNat = w.toNat % 256 := by
  simp [fieldNn, BitVec.extractLsb'_toNat, Nat.shiftRight_eq_div_pow]

theorem toNat_fieldNnn (w : Word) : (fieldNnn w).toNat = w.toNat % 4096 := by
  simp [fieldNnn, BitVec.extractLsb'_toNat, Nat.shiftRight_eq_div_pow]

/-! ### The fields of a packed word -/

@[simp] theorem fieldOp_packNnn (op : Nibble) (nnn : Addr12) : fieldOp (packNnn op nnn) = op := by
  apply BitVec.eq_of_toNat_eq; rw [toNat_fieldOp, toNat_packNnn]; omega

@[simp] theorem fieldNnn_packNnn (op : Nibble) (nnn : Addr12) : fieldNnn (packNnn op nnn) = nnn := by
  apply BitVec.eq_of_toNat_eq; rw [toNat_fieldNnn, toNat_packNnn]; omega

@[simp] theorem fieldOp_packXNn (op x : Nibble) (nn : Byte) : fieldOp (packXNn op x nn) = op := by
  apply BitVec.eq_of_toNat_eq; rw [toNat_fieldOp, toNat_packXNn]; omega

@[simp] theorem fieldX_packXNn (op x : Nibble) (nn : Byte) : fieldX (packXNn op x nn) = x := by
  apply BitVec.eq_of_toNat_eq; rw [toNat_fieldX, toNat_packXNn]; omega

@[simp] theorem fieldNn_packXNn (op x : Nibble) (nn : Byte) : fieldNn (packXNn op x nn) = nn := by
  apply BitVec.eq_of_toNat_eq; rw [toNat_fieldNn, toNat_packXNn]; omega

@[simp] theorem fieldOp_packXYN (op x y n : Nibble) : fieldOp (packXYN op x y n) = op := by
  apply BitVec.eq_of_toNat_eq; rw [toNat_fieldOp, toNat_packXYN]; omega

@[simp] theorem fieldX_packXYN (op x y n : Nibble) : fieldX (packXYN op x y n) = x := by
  apply BitVec.eq_of_toNat_eq; rw [toNat_fieldX, toNat_packXYN]; omega

@[simp] theorem fieldY_packXYN (op x y n : Nibble) : fieldY (packXYN op x y n) = y := by
  apply BitVec.eq_of_toNat_eq; rw [toNat_fieldY, toNat_packXYN]; omega

@[simp] theorem fieldN_packXYN (op x y n : Nibble) : fieldN (packXYN op x y n) = n := by
  apply BitVec.eq_of_toNat_eq; rw [toNat_fieldN, toNat_packXYN]; omega

/-! ### A word is its packed fields -/

theorem packNnn_fields (w : Word) : packNnn (fieldOp w) (fieldNnn w) = w := by
  apply BitVec.eq_of_toNat_eq; rw [toNat_packNnn, toNat_fieldOp, toNat_fieldNnn]; omega

theorem packXNn_fields (w : Word) : packXNn (fieldOp w) (fieldX w) (fieldNn w) = w := by
  apply BitVec.eq_of_toNat_eq; rw [toNat_packXNn, toNat_fieldOp, toNat_fieldX, toNat_fieldNn]; omega

theorem packXYN_fields (w : Word) : packXYN (fieldOp w) (fieldX w) (fieldY w) (fieldN w) = w := by
  apply BitVec.eq_of_toNat_eq; rw [toNat_packXYN, toNat_fieldOp, toNat_fieldX, toNat_fieldY, toNat_fieldN]; omega

/-! ### A packed word under the masks of the opcode map -/

theorem packNnn_and_F000 (op : Nibble) (nnn : Addr12) : packNnn op nnn &&& 0xF000#16 = packNnn op 0#12 := by
  refine Eq.trans (BitVec.and_append (x₁ := op) (x₂ := 0xF#4) (y₁ := nnn) (y₂ := 0#12)) ?_
  rw [show op &&& 0xF#4 = op from BitVec.and_allOnes, BitVec.and_zero]
  rfl

theorem packXNn_and_F000 (op x : Nibble) (nn : Byte) : packXNn op x nn &&& 0xF000#16 = packXNn op 0#4 0#8 := by
  refine Eq.trans (BitVec.and_append (x₁ := op ++ x) (x₂ := 0xF0#8) (y₁ := nn) (y₂ := 0#8)) ?_
  rw [show (op ++ x) &&& 0xF0#8 = op ++ 0#4 from
    (BitVec.and_append (x₁ := op) (x₂ := 0xF#4) (y₁ := x) (y₂ := 0#4)).trans
      (by rw [show op &&& 0xF#4 = op from BitVec.and_allOnes, BitVec.and_zero]), BitVec.and_zero]
  rfl

theorem packXNn_and_F0FF (op x : Nibble) (nn : Byte) : packXNn op x nn &&& 0xF0FF#16 = packXNn op 0#4 nn := by
  refine Eq.trans (BitVec.and_append (x₁ := op ++ x) (x₂ := 0xF0#8) (y₁ := nn) (y₂ := 0xFF#8)) ?_
  rw [show (op ++ x) &&& 0xF0#8 = op ++ 0#4 from
    (BitVec.and_append (x₁ := op) (x₂ := 0xF#4) (y₁ := x) (y₂ := 0#4)).trans
      (by rw [show op &&& 0xF#4 = op from BitVec.and_allOnes, BitVec.and_zero]),
    show nn &&& 0xFF#8 = nn from BitVec.and_allOnes]
  rfl

theorem packXYN_and_F00F (op x y n : Nibble) : packXYN op x y n &&& 0xF00F#16 = packXYN op 0#4 0#4 n := by
  refine Eq.trans (BitVec.and_append (x₁ := op ++ x ++ y) (x₂ := 0xF00#12) (y₁ := n) (y₂ := 0xF#4)) ?_
  rw [show (op ++ x ++ y) &&& 0xF00#12 = op ++ 0#4 ++ 0#4 from
    (BitVec.and_append (x₁ := op ++ x) (x₂ := 0xF0#8) (y₁ := y) (y₂ := 0#4)).trans
      (by
        rw [show (op ++ x) &&& 0xF0#8 = op ++ 0#4 from
          (BitVec.and_append (x₁ := op) (x₂ := 0xF#4) (y₁ := x) (y₂ := 0#4)).trans
            (by rw [show op &&& 0xF#4 = op from BitVec.and_allOnes, BitVec.and_zero]), BitVec.and_zero]),
    show n &&& 0xF#4 = n from BitVec.and_allOnes]
  rfl

theorem packXYN_and_F000 (op x y n : Nibble) : packXYN op x y n &&& 0xF000#16 = packXYN op 0#4 0#4 0#4 := by
  refine Eq.trans (BitVec.and_append (x₁ := op ++ x ++ y) (x₂ := 0xF00#12) (y₁ := n) (y₂ := 0#4)) ?_
  rw [show (op ++ x ++ y) &&& 0xF00#12 = op ++ 0#4 ++ 0#4 from
    (BitVec.and_append (x₁ := op ++ x) (x₂ := 0xF0#8) (y₁ := y) (y₂ := 0#4)).trans
      (by
        rw [show (op ++ x) &&& 0xF0#8 = op ++ 0#4 from
          (BitVec.and_append (x₁ := op) (x₂ := 0xF#4) (y₁ := x) (y₂ := 0#4)).trans
            (by rw [show op &&& 0xF#4 = op from BitVec.and_allOnes, BitVec.and_zero]), BitVec.and_zero]),
    BitVec.and_zero]
  rfl

/-! ### A word that matches a row is its packed fields -/

theorem eq_packNnn_of_and_F000 {w : Word} {op : Nibble} (h : w &&& 0xF000#16 = packNnn op 0#12) :
    w = packNnn op (fieldNnn w) := by
  apply BitVec.eq_of_getLsbD_eq
  intro i hi
  have hb := congrArg (fun v => v.getLsbD i) h
  simp only [packNnn, fieldNnn, BitVec.getLsbD_and, BitVec.getLsbD_append, BitVec.getLsbD_extractLsb'] at hb ⊢
  interval_cases i <;> simp_all

theorem eq_packXNn_of_and_F000 {w : Word} {op : Nibble} (h : w &&& 0xF000#16 = packXNn op 0#4 0#8) :
    w = packXNn op (fieldX w) (fieldNn w) := by
  apply BitVec.eq_of_getLsbD_eq
  intro i hi
  have hb := congrArg (fun v => v.getLsbD i) h
  simp only [packXNn, fieldX, fieldNn, BitVec.getLsbD_and, BitVec.getLsbD_append, BitVec.getLsbD_extractLsb'] at hb ⊢
  interval_cases i <;> simp_all

theorem eq_packXNn_of_and_F0FF {w : Word} {op : Nibble} {nn : Byte} (h : w &&& 0xF0FF#16 = packXNn op 0#4 nn) :
    w = packXNn op (fieldX w) nn := by
  apply BitVec.eq_of_getLsbD_eq
  intro i hi
  have hb := congrArg (fun v => v.getLsbD i) h
  simp only [packXNn, fieldX, BitVec.getLsbD_and, BitVec.getLsbD_append, BitVec.getLsbD_extractLsb'] at hb ⊢
  interval_cases i <;> simp_all

theorem eq_packXYN_of_and_F00F {w : Word} {op n : Nibble} (h : w &&& 0xF00F#16 = packXYN op 0#4 0#4 n) :
    w = packXYN op (fieldX w) (fieldY w) n := by
  apply BitVec.eq_of_getLsbD_eq
  intro i hi
  have hb := congrArg (fun v => v.getLsbD i) h
  simp only [packXYN, fieldX, fieldY, BitVec.getLsbD_and, BitVec.getLsbD_append, BitVec.getLsbD_extractLsb'] at hb ⊢
  interval_cases i <;> simp_all

end Sys2Proof
end

