-- ==== Sys2Proof/Laws/State.lean ====
section
/-! SUPPORT. The small lemmas of the state: for each update, what every field and every observer of the state reads
after it. What an update does to its own observer (`v` after `setV`, `pixel` after `setPixel`, `readByte` after
`writeByte`) stands in Laws/Ops.lean. -/

namespace Sys2Proof.Machine

/-! ### setV -/

@[simp] theorem setV_mem (s : State) (x : Nibble) (b : Byte) : (s.setV x b).mem = s.mem := rfl
@[simp] theorem setV_regs (s : State) (x : Nibble) (b : Byte) : (s.setV x b).regs = s.regs.set x.toNat b x.isLt := rfl
@[simp] theorem setV_i (s : State) (x : Nibble) (b : Byte) : (s.setV x b).i = s.i := rfl
@[simp] theorem setV_pc (s : State) (x : Nibble) (b : Byte) : (s.setV x b).pc = s.pc := rfl
@[simp] theorem setV_stack (s : State) (x : Nibble) (b : Byte) : (s.setV x b).stack = s.stack := rfl
@[simp] theorem setV_sp (s : State) (x : Nibble) (b : Byte) : (s.setV x b).sp = s.sp := rfl
@[simp] theorem setV_dt (s : State) (x : Nibble) (b : Byte) : (s.setV x b).dt = s.dt := rfl
@[simp] theorem setV_st (s : State) (x : Nibble) (b : Byte) : (s.setV x b).st = s.st := rfl
@[simp] theorem setV_fb (s : State) (x : Nibble) (b : Byte) : (s.setV x b).fb = s.fb := rfl
@[simp] theorem setV_keys (s : State) (x : Nibble) (b : Byte) : (s.setV x b).keys = s.keys := rfl
@[simp] theorem setV_romSize (s : State) (x : Nibble) (b : Byte) : (s.setV x b).romSize = s.romSize := rfl
@[simp] theorem setV_redraw (s : State) (x : Nibble) (b : Byte) : (s.setV x b).redraw = s.redraw := rfl
@[simp] theorem setV_config (s : State) (x : Nibble) (b : Byte) : (s.setV x b).config = s.config := rfl
@[simp] theorem setV_draws (s : State) (x : Nibble) (b : Byte) : (s.setV x b).draws = s.draws := rfl
@[simp] theorem setV_outcome (s : State) (x : Nibble) (b : Byte) : (s.setV x b).outcome = s.outcome := rfl
@[simp] theorem setV_faults (s : State) (x : Nibble) (b : Byte) : (s.setV x b).faults = s.faults := rfl
@[simp] theorem setV_readByte (s : State) (x : Nibble) (b : Byte) (a : Nat) : (s.setV x b).readByte a = s.readByte a := rfl
@[simp] theorem setV_pixel (s : State) (x : Nibble) (b : Byte) (c r : Nat) : (s.setV x b).pixel c r = s.pixel c r := rfl
@[simp] theorem setV_key (s : State) (x : Nibble) (b : Byte) (k : Nat) : (s.setV x b).key k = s.key k := rfl
@[simp] theorem setV_entry (s : State) (x : Nibble) (b : Byte) (k : Fin 16) : (s.setV x b).entry k = s.entry k := rfl

/-! ### setI -/

@[simp] theorem setI_mem (s : State) (w : Word) : (s.setI w).mem = s.mem := rfl
@[simp] theorem setI_regs (s : State) (w : Word) : (s.setI w).regs = s.regs := rfl
@[simp] theorem setI_i (s : State) (w : Word) : (s.setI w).i = w := rfl
@[simp] theorem setI_pc (s : State) (w : Word) : (s.setI w).pc = s.pc := rfl
@[simp] theorem setI_stack (s : State) (w : Word) : (s.setI w).stack = s.stack := rfl
@[simp] theorem setI_sp (s : State) (w : Word) : (s.setI w).sp = s.sp := rfl
@[simp] theorem setI_dt (s : State) (w : Word) : (s.setI w).dt = s.dt := rfl
@[simp] theorem setI_st (s : State) (w : Word) : (s.setI w).st = s.st := rfl
@[simp] theorem setI_fb (s : State) (w : Word) : (s.setI w).fb = s.fb := rfl
@[simp] theorem setI_keys (s : State) (w : Word) : (s.setI w).keys = s.keys := rfl
@[simp] theorem setI_romSize (s : State) (w : Word) : (s.setI w).romSize = s.romSize := rfl
@[simp] theorem setI_redraw (s : State) (w : Word) : (s.setI w).redraw = s.redraw := rfl
@[simp] theorem setI_config (s : State) (w : Word) : (s.setI w).config = s.config := rfl
@[simp] theorem setI_draws (s : State) (w : Word) : (s.setI w).draws = s.draws := rfl
@[simp] theorem setI_outcome (s : State) (w : Word) : (s.setI w).outcome = s.outcome := rfl
@[simp] theorem setI_faults (s : State) (w : Word) : (s.setI w).faults = s.faults := rfl
@[simp] theorem setI_readByte (s : State) (w : Word) (a : Nat) : (s.setI w).readByte a = s.readByte a := rfl
@[simp] theorem setI_v (s : State) (w : Word) (y : Nibble) : (s.setI w).v y = s.v y := rfl
@[simp] theorem setI_pixel (s : State) (w : Word) (c r : Nat) : (s.setI w).pixel c r = s.pixel c r := rfl
@[simp] theorem setI_key (s : State) (w : Word) (k : Nat) : (s.setI w).key k = s.key k := rfl
@[simp] theorem setI_entry (s : State) (w : Word) (k : Fin 16) : (s.setI w).entry k = s.entry k := rfl

/-! ### setPc -/

@[simp] theorem setPc_mem (s : State) (w : Word) : (s.setPc w).mem = s.mem := rfl
@[simp] theorem setPc_regs (s : State) (w : Word) : (s.setPc w).regs = s.regs := rfl
@[simp] theorem setPc_i (s : State) (w : Word) : (s.setPc w).i = s.i := rfl
@[simp] theorem setPc_pc (s : State) (w : Word) : (s.setPc w).pc = w := rfl
@[simp] theorem setPc_stack (s : State) (w : Word) : (s.setPc w).stack = s.stack := rfl
@[simp] theorem setPc_sp (s : State) (w : Word) : (s.setPc w).sp = s.sp := rfl
@[simp] theorem setPc_dt (s : State) (w : Word) : (s.setPc w).dt = s.dt := rfl
@[simp] theorem setPc_st (s : State) (w : Word) : (s.setPc w).st = s.st := rfl
@[simp] theorem setPc_fb (s : State) (w : Word) : (s.setPc w).fb = s.fb := rfl
@[simp] theorem setPc_keys (s : State) (w : Word) : (s.setPc w).keys = s.keys := rfl
@[simp] theorem setPc_romSize (s : State) (w : Word) : (s.setPc w).romSize = s.romSize := rfl
@[simp] theorem setPc_redraw (s : State) (w : Word) : (s.setPc w).redraw = s.redraw := rfl
@[simp] theorem setPc_config (s : State) (w : Word) : (s.setPc w).config = s.config := rfl
@[simp] theorem setPc_draws (s : State) (w : Word) : (s.setPc w).draws = s.draws := rfl
@[simp] theorem setPc_outcome (s : State) (w : Word) : (s.setPc w).outcome = s.outcome := rfl
@[simp] theorem setPc_faults (s : State) (w : Word) : (s.setPc w).faults = s.faults := rfl
@[simp] theorem setPc_readByte (s : State) (w : Word) (a : Nat) : (s.setPc w).readByte a = s.readByte a := rfl
@[simp] theorem setPc_v (s : State) (w : Word) (y : Nibble) : (s.setPc w).v y = s.v y := rfl
@[simp] theorem setPc_pixel (s : State) (w : Word) (c r : Nat) : (s.setPc w).pixel c r = s.pixel c r := rfl
@[simp] theorem setPc_key (s : State) (w : Word) (k : Nat) : (s.setPc w).key k = s.key k := rfl
@[simp] theorem setPc_entry (s : State) (w : Word) (k : Fin 16) : (s.setPc w).entry k = s.entry k := rfl

/-! ### skip -/

@[simp] theorem skip_mem (s : State) : s.skip.mem = s.mem := rfl
@[simp] theorem skip_regs (s : State) : s.skip.regs = s.regs := rfl
@[simp] theorem skip_i (s : State) : s.skip.i = s.i := rfl
@[simp] theorem skip_pc (s : State) : s.skip.pc = s.pc + 2#16 := rfl
@[simp] theorem skip_stack (s : State) : s.skip.stack = s.stack := rfl
@[simp] theorem skip_sp (s : State) : s.skip.sp = s.sp := rfl
@[simp] theorem skip_dt (s : State) : s.skip.dt = s.dt := rfl
@[simp] theorem skip_st (s : State) : s.skip.st = s.st := rfl
@[simp] theorem skip_fb (s : State) : s.skip.fb = s.fb := rfl
@[simp] theorem skip_keys (s : State) : s.skip.keys = s.keys := rfl
@[simp] theorem skip_romSize (s : State) : s.skip.romSize = s.romSize := rfl
@[simp] theorem skip_redraw (s : State) : s.skip.redraw = s.redraw := rfl
@[simp] theorem skip_config (s : State) : s.skip.config = s.config := rfl
@[simp] theorem skip_draws (s : State) : s.skip.draws = s.draws := rfl
@[simp] theorem skip_outcome (s : State) : s.skip.outcome = s.outcome := rfl
@[simp] theorem skip_faults (s : State) : s.skip.faults = s.faults := rfl
@[simp] theorem skip_readByte (s : State) (a : Nat) : s.skip.readByte a = s.readByte a := rfl
@[simp] theorem skip_v (s : State) (y : Nibble) : s.skip.v y = s.v y := rfl
@[simp] theorem skip_pixel (s : State) (c r : Nat) : s.skip.pixel c r = s.pixel c r := rfl
@[simp] theorem skip_key (s : State) (k : Nat) : s.skip.key k = s.key k := rfl
@[simp] theorem skip_entry (s : State) (k : Fin 16) : s.skip.entry k = s.entry k := rfl

/-! ### skipIf -/

@[simp] theorem skipIf_mem (s : State) (q : Bool) : (s.skipIf q).mem = s.mem := by cases q <;> rfl
@[simp] theorem skipIf_regs (s : State) (q : Bool) : (s.skipIf q).regs = s.regs := by cases q <;> rfl
@[simp] theorem skipIf_i (s : State) (q : Bool) : (s.skipIf q).i = s.i := by cases q <;> rfl
@[simp] theorem skipIf_pc (s : State) (q : Bool) : (s.skipIf q).pc = if q then s.pc + 2#16 else s.pc := by cases q <;> rfl
@[simp] theorem skipIf_stack (s : State) (q : Bool) : (s.skipIf q).stack = s.stack := by cases q <;> rfl
@[simp] theorem skipIf_sp (s : State) (q : Bool) : (s.skipIf q).sp = s.sp := by cases q <;> rfl
@[simp] theorem skipIf_dt (s : State) (q : Bool) : (s.skipIf q).dt = s.dt := by cases q <;> rfl
@[simp] theorem skipIf_st (s : State) (q : Bool) : (s.skipIf q).st = s.st := by cases q <;> rfl
@[simp] theorem skipIf_fb (s : State) (q : Bool) : (s.skipIf q).fb = s.fb := by cases q <;> rfl
@[simp] theorem skipIf_keys (s : State) (q : Bool) : (s.skipIf q).keys = s.keys := by cases q <;> rfl
@[simp] theorem skipIf_romSize (s : State) (q : Bool) : (s.skipIf q).romSize = s.romSize := by cases q <;> rfl
@[simp] theorem skipIf_redraw (s : State) (q : Bool) : (s.skipIf q).redraw = s.redraw := by cases q <;> rfl
@[simp] theorem skipIf_config (s : State) (q : Bool) : (s.skipIf q).config = s.config := by cases q <;> rfl
@[simp] theorem skipIf_draws (s : State) (q : Bool) : (s.skipIf q).draws = s.draws := by cases q <;> rfl
@[simp] theorem skipIf_outcome (s : State) (q : Bool) : (s.skipIf q).outcome = s.outcome := by cases q <;> rfl
@[simp] theorem skipIf_faults (s : State) (q : Bool) : (s.skipIf q).faults = s.faults := by cases q <;> rfl
@[simp] theorem skipIf_readByte (s : State) (q : Bool) (a : Nat) : (s.skipIf q).readByte a = s.readByte a := by cases q <;> rfl
@[simp] theorem skipIf_v (s : State) (q : Bool) (y : Nibble) : (s.skipIf q).v y = s.v y := by cases q <;> rfl
@[simp] theorem skipIf_pixel (s : State) (q : Bool) (c r : Nat) : (s.skipIf q).pixel c r = s.pixel c r := by cases q <;> rfl
@[simp] theorem skipIf_key (s : State) (q : Bool) (k : Nat) : (s.skipIf q).key k = s.key k := by cases q <;> rfl
@[simp] theorem skipIf_entry (s : State) (q : Bool) (k : Fin 16) : (s.skipIf q).entry k = s.entry k := by cases q <;> rfl

/-! ### setDt -/

@[simp] theorem setDt_mem (s : State) (b : Byte) : (s.setDt b).mem = s.mem := rfl
@[simp] theorem setDt_regs (s : State) (b : Byte) : (s.setDt b).regs = s.regs := rfl
@[simp] theorem setDt_i (s : State) (b : Byte) : (s.setDt b).i = s.i := rfl
@[simp] theorem setDt_pc (s : State) (b : Byte) : (s.setDt b).pc = s.pc := rfl
@[simp] theorem setDt_stack (s : State) (b : Byte) : (s.setDt b).stack = s.stack := rfl
@[simp] theorem setDt_sp (s : State) (b : Byte) : (s.setDt b).sp = s.sp := rfl
@[simp] theorem setDt_dt (s : State) (b : Byte) : (s.setDt b).dt = b := rfl
@[simp] theorem setDt_st (s : State) (b : Byte) : (s.setDt b).st = s.st := rfl
@[simp] theorem setDt_fb (s : State) (b : Byte) : (s.setDt b).fb = s.fb := rfl
@[simp] theorem setDt_keys (s : State) (b : Byte) : (s.setDt b).keys = s.keys := rfl
@[simp] theorem setDt_romSize (s : State) (b : Byte) : (s.setDt b).romSize = s.romSize := rfl
@[simp] theorem setDt_redraw (s : State) (b : Byte) : (s.setDt b).redraw = s.redraw := rfl
@[simp] theorem setDt_config (s : State) (b : Byte) : (s.setDt b).config = s.config := rfl
@[simp] theorem setDt_draws (s : State) (b : Byte) : (s.setDt b).draws = s.draws := rfl
@[simp] theorem setDt_outcome (s : State) (b : Byte) : (s.setDt b).outcome = s.outcome := rfl
@[simp] theorem setDt_faults (s : State) (b : Byte) : (s.setDt b).faults = s.faults := rfl
@[simp] theorem setDt_readByte (s : State) (b : Byte) (a : Nat) : (s.setDt b).readByte a = s.readByte a := rfl
@[simp] theorem setDt_v (s : State) (b : Byte) (y : Nibble) : (s.setDt b).v y = s.v y := rfl
@[simp] theorem setDt_pixel (s : State) (b : Byte) (c r : Nat) : (s.setDt b).pixel c r = s.pixel c r := rfl
@[simp] theorem setDt_key (s : State) (b : Byte) (k : Nat) : (s.setDt b).key k = s.key k := rfl
@[simp] theorem setDt_entry (s : State) (b : Byte) (k : Fin 16) : (s.setDt b).entry k = s.entry k := rfl

/-! ### setSt -/

@[simp] theorem setSt_mem (s : State) (b : Byte) : (s.setSt b).mem = s.mem := rfl
@[simp] theorem setSt_regs (s : State) (b : Byte) : (s.setSt b).regs = s.regs := rfl
@[simp] theorem setSt_i (s : State) (b : Byte) : (s.setSt b).i = s.i := rfl
@[simp] theorem setSt_pc (s : State) (b : Byte) : (s.setSt b).pc = s.pc := rfl
@[simp] theorem setSt_stack (s : State) (b : Byte) : (s.setSt b).stack = s.stack := rfl
@[simp] theorem setSt_sp (s : State) (b : Byte) : (s.setSt b).sp = s.sp := rfl
@[simp] theorem setSt_dt (s : State) (b : Byte) : (s.setSt b).dt = s.dt := rfl
@[simp] theorem setSt_st (s : State) (b : Byte) : (s.setSt b).st = b := rfl
@[simp] theorem setSt_fb (s : State) (b : Byte) : (s.setSt b).fb = s.fb := rfl
@[simp] theorem setSt_keys (s : State) (b : Byte) : (s.setSt b).keys = s.keys := rfl
@[simp] theorem setSt_romSize (s : State) (b : Byte) : (s.setSt b).romSize = s.romSize := rfl
@[simp] theorem setSt_redraw (s : State) (b : Byte) : (s.setSt b).redraw = s.redraw := rfl
@[simp] theorem setSt_config (s : State) (b : Byte) : (s.setSt b).config = s.config := rfl
@[simp] theorem setSt_draws (s : State) (b : Byte) : (s.setSt b).draws = s.draws := rfl
@[simp] theorem setSt_outcome (s : State) (b : Byte) : (s.setSt b).outcome = s.outcome := rfl
@[simp] theorem setSt_faults (s : State) (b : Byte) : (s.setSt b).faults = s.faults := rfl
@[simp] theorem setSt_readByte (s : State) (b : Byte) (a : Nat) : (s.setSt b).readByte a = s.readByte a := rfl
@[simp] theorem setSt_v (s : State) (b : Byte) (y : Nibble) : (s.setSt b).v y = s.v y := rfl
@[simp] theorem setSt_pixel (s : State) (b : Byte) (c r : Nat) : (s.setSt b).pixel c r = s.pixel c r := rfl
@[simp] theorem setSt_key (s : State) (b : Byte) (k : Nat) : (s.setSt b).key k = s.key k := rfl
@[simp] theorem setSt_entry (s : State) (b : Byte) (k : Fin 16) : (s.setSt b).entry k = s.entry k := rfl

/-! ### tick -/

@[simp] theorem tick_mem (s : State) : s.tick.mem = s.mem := rfl
@[simp] theorem tick_regs (s : State) : s.tick.regs = s.regs := rfl
@[simp] theorem tick_i (s : State) : s.tick.i = s.i := rfl
@[simp] theorem tick_pc (s : State) : s.tick.pc = s.pc := rfl
@[simp] theorem tick_stack (s : State) : s.tick.stack = s.stack := rfl
@[simp] theorem tick_sp (s : State) : s.tick.sp = s.sp := rfl
@[simp] theorem tick_dt (s : State) : s.tick.dt = tickDown s.dt := rfl
@[simp] theorem tick_st (s : State) : s.tick.st = tickDown s.st := rfl
@[simp] theorem tick_fb (s : State) : s.tick.fb = s.fb := rfl
@[simp] theorem tick_keys (s : State) : s.tick.keys = s.keys := rfl
@[simp] theorem tick_romSize (s : State) : s.tick.romSize = s.romSize := rfl
@[simp] theorem tick_redraw (s : State) : s.tick.redraw = s.redraw := rfl
@[simp] theorem tick_config (s : State) : s.tick.config = s.config := rfl
@[simp] theorem tick_draws (s : State) : s.tick.draws = s.draws := rfl
@[simp] theorem tick_outcome (s : State) : s.tick.outcome = s.outcome := rfl
@[simp] theorem tick_faults (s : State) : s.tick.faults = s.faults := rfl
@[simp] theorem tick_readByte (s : State) (a : Nat) : s.tick.readByte a = s.readByte a := rfl
@[simp] theorem tick_v (s : State) (y : Nibble) : s.tick.v y = s.v y := rfl
@[simp] theorem tick_pixel (s : State) (c r : Nat) : s.tick.pixel c r = s.pixel c r := rfl
@[simp] theorem tick_key (s : State) (k : Nat) : s.tick.key k = s.key k := rfl
@[simp] theorem tick_entry (s : State) (k : Fin 16) : s.tick.entry k = s.entry k := rfl

/-! ### clearPixels -/

@[simp] theorem clearPixels_mem (s : State) : s.clearPixels.mem = s.mem := rfl
@[simp] theorem clearPixels_regs (s : State) : s.clearPixels.regs = s.regs := rfl
@[simp] theorem clearPixels_i (s : State) : s.clearPixels.i = s.i := rfl
@[simp] theorem clearPixels_pc (s : State) : s.clearPixels.pc = s.pc := rfl
@[simp] theorem clearPixels_stack (s : State) : s.clearPixels.stack = s.stack := rfl
@[simp] theorem clearPixels_sp (s : State) : s.clearPixels.sp = s.sp := rfl
@[simp] theorem clearPixels_dt (s : State) : s.clearPixels.dt = s.dt := rfl
@[simp] theorem clearPixels_st (s : State) : s.clearPixels.st = s.st := rfl
@[simp] theorem clearPixels_keys (s : State) : s.clearPixels.keys = s.keys := rfl
@[simp] theorem clearPixels_romSize (s : State) : s.clearPixels.romSize = s.romSize := rfl
@[simp] theorem clearPixels_redraw (s : State) : s.clearPixels.redraw = s.redraw := rfl
@[simp] theorem clearPixels_config (s : State) : s.clearPixels.config = s.config := rfl
@[simp] theorem clearPixels_draws (s : State) : s.clearPixels.draws = s.draws := rfl
@[simp] theorem clearPixels_outcome (s : State) : s.clearPixels.outcome = s.outcome := rfl
@[simp] theorem clearPixels_faults (s : State) : s.clearPixels.faults = s.faults := rfl
@[simp] theorem clearPixels_readByte (s : State) (a : Nat) : s.clearPixels.readByte a = s.readByte a := rfl
@[simp] theorem clearPixels_v (s : State) (y : Nibble) : s.clearPixels.v y = s.v y := rfl
@[simp] theorem clearPixels_key (s : State) (k : Nat) : s.clearPixels.key k = s.key k := rfl
@[simp] theorem clearPixels_entry (s : State) (k : Fin 16) : s.clearPixels.entry k = s.entry k := rfl

/-! ### setPixel -/

@[simp] theorem setPixel_mem (s : State) (c' r' : Nat) (p : Bool) : (s.setPixel c' r' p).mem = s.mem := by unfold State.setPixel; split <;> rfl
@[simp] theorem setPixel_regs (s : State) (c' r' : Nat) (p : Bool) : (s.setPixel c' r' p).regs = s.regs := by unfold State.setPixel; split <;> rfl
@[simp] theorem setPixel_i (s : State) (c' r' : Nat) (p : Bool) : (s.setPixel c' r' p).i = s.i := by unfold State.setPixel; split <;> rfl
@[simp] theorem setPixel_pc (s : State) (c' r' : Nat) (p : Bool) : (s.setPixel c' r' p).pc = s.pc := by unfold State.setPixel; split <;> rfl
@[simp] theorem setPixel_stack (s : State) (c' r' : Nat) (p : Bool) : (s.setPixel c' r' p).stack = s.stack := by unfold State.setPixel; split <;> rfl
@[simp] theorem setPixel_sp (s : State) (c' r' : Nat) (p : Bool) : (s.setPixel c' r' p).sp = s.sp := by unfold State.setPixel; split <;> rfl
@[simp] theorem setPixel_dt (s : State) (c' r' : Nat) (p : Bool) : (s.setPixel c' r' p).dt = s.dt := by unfold State.setPixel; split <;> rfl
@[simp] theorem setPixel_st (s : State) (c' r' : Nat) (p : Bool) : (s.setPixel c' r' p).st = s.st := by unfold State.setPixel; split <;> rfl
@[simp] theorem setPixel_keys (s : State) (c' r' : Nat) (p : Bool) : (s.setPixel c' r' p).keys = s.keys := by unfold State.setPixel; split <;> rfl
@[simp] theorem setPixel_romSize (s : State) (c' r' : Nat) (p : Bool) : (s.setPixel c' r' p).romSize = s.romSize := by unfold State.setPixel; split <;> rfl
@[simp] theorem setPixel_redraw (s : State) (c' r' : Nat) (p : Bool) : (s.setPixel c' r' p).redraw = s.redraw := by unfold State.setPixel; split <;> rfl
@[simp] theorem setPixel_config (s : State) (c' r' : Nat) (p : Bool) : (s.setPixel c' r' p).config = s.config := by unfold State.setPixel; split <;> rfl
@[simp] theorem setPixel_draws (s : State) (c' r' : Nat) (p : Bool) : (s.setPixel c' r' p).draws = s.draws := by unfold State.setPixel; split <;> rfl
@[simp] theorem setPixel_outcome (s : State) (c' r' : Nat) (p : Bool) : (s.setPixel c' r' p).outcome = s.outcome := by unfold State.setPixel; split <;> rfl
@[simp] theorem setPixel_faults (s : State) (c' r' : Nat) (p : Bool) : (s.setPixel c' r' p).faults = s.faults := by unfold State.setPixel; split <;> rfl
@[simp] theorem setPixel_readByte (s : State) (c' r' : Nat) (p : Bool) (a : Nat) : (s.setPixel c' r' p).readByte a = s.readByte a := by unfold State.setPixel; split <;> rfl
@[simp] theorem setPixel_v (s : State) (c' r' : Nat) (p : Bool) (y : Nibble) : (s.setPixel c' r' p).v y = s.v y := by unfold State.setPixel; split <;> rfl
@[simp] theorem setPixel_key (s : State) (c' r' : Nat) (p : Bool) (k : Nat) : (s.setPixel c' r' p).key k = s.key k := by unfold State.setPixel; split <;> rfl
@[simp] theorem setPixel_entry (s : State) (c' r' : Nat) (p : Bool) (k : Fin 16) : (s.setPixel c' r' p).entry k = s.entry k := by unfold State.setPixel; split <;> rfl

/-! ### setRedraw -/

@[simp] theorem setRedraw_mem (s : State) (b : Bool) : (s.setRedraw b).mem = s.mem := rfl
@[simp] theorem setRedraw_regs (s : State) (b : Bool) : (s.setRedraw b).regs = s.regs := rfl
@[simp] theorem setRedraw_i (s : State) (b : Bool) : (s.setRedraw b).i = s.i := rfl
@[simp] theorem setRedraw_pc (s : State) (b : Bool) : (s.setRedraw b).pc = s.pc := rfl
@[simp] theorem setRedraw_stack (s : State) (b : Bool) : (s.setRedraw b).stack = s.stack := rfl
@[simp] theorem setRedraw_sp (s : State) (b : Bool) : (s.setRedraw b).sp = s.sp := rfl
@[simp] theorem setRedraw_dt (s : State) (b : Bool) : (s.setRedraw b).dt = s.dt := rfl
@[simp] theorem setRedraw_st (s : State) (b : Bool) : (s.setRedraw b).st = s.st := rfl
@[simp] theorem setRedraw_fb (s : State) (b : Bool) : (s.setRedraw b).fb = s.fb := rfl
@[simp] theorem setRedraw_keys (s : State) (b : Bool) : (s.setRedraw b).keys = s.keys := rfl
@[simp] theorem setRedraw_romSize (s : State) (b : Bool) : (s.setRedraw b).romSize = s.romSize := rfl
@[simp] theorem setRedraw_redraw (s : State) (b : Bool) : (s.setRedraw b).redraw = b := rfl
@[simp] theorem setRedraw_config (s : State) (b : Bool) : (s.setRedraw b).config = s.config := rfl
@[simp] theorem setRedraw_draws (s : State) (b : Bool) : (s.setRedraw b).draws = s.draws := rfl
@[simp] theorem setRedraw_outcome (s : State) (b : Bool) : (s.setRedraw b).outcome = s.outcome := rfl
@[simp] theorem setRedraw_faults (s : State) (b : Bool) : (s.setRedraw b).faults = s.faults := rfl
@[simp] theorem setRedraw_readByte (s : State) (b : Bool) (a : Nat) : (s.setRedraw b).readByte a = s.readByte a := rfl
@[simp] theorem setRedraw_v (s : State) (b : Bool) (y : Nibble) : (s.setRedraw b).v y = s.v y := rfl
@[simp] theorem setRedraw_pixel (s : State) (b : Bool) (c r : Nat) : (s.setRedraw b).pixel c r = s.pixel c r := rfl
@[simp] theorem setRedraw_key (s : State) (b : Bool) (k : Nat) : (s.setRedraw b).key k = s.key k := rfl
@[simp] theorem setRedraw_entry (s : State) (b : Bool) (k : Fin 16) : (s.setRedraw b).entry k = s.entry k := rfl

/-! ### nextDraw -/

@[simp] theorem nextDraw_mem (s : State) : s.nextDraw.mem = s.mem := rfl
@[simp] theorem nextDraw_regs (s : State) : s.nextDraw.regs = s.regs := rfl
@[simp] theorem nextDraw_i (s : State) : s.nextDraw.i = s.i := rfl
@[simp] theorem nextDraw_pc (s : State) : s.nextDraw.pc = s.pc := rfl
@[simp] theorem nextDraw_stack (s : State) : s.nextDraw.stack = s.stack := rfl
@[simp] theorem nextDraw_sp (s : State) : s.nextDraw.sp = s.sp := rfl
@[simp] theorem nextDraw_dt (s : State) : s.nextDraw.dt = s.dt := rfl
@[simp] theorem nextDraw_st (s : State) : s.nextDraw.st = s.st := rfl
@[simp] theorem nextDraw_fb (s : State) : s.nextDraw.fb = s.fb := rfl
@[simp] theorem nextDraw_keys (s : State) : s.nextDraw.keys = s.keys := rfl
@[simp] theorem nextDraw_romSize (s : State) : s.nextDraw.romSize = s.romSize := rfl
@[simp] theorem nextDraw_redraw (s : State) : s.nextDraw.redraw = s.redraw := rfl
@[simp] theorem nextDraw_config (s : State) : s.nextDraw.config = s.config := rfl
@[simp] theorem nextDraw_draws (s : State) : s.nextDraw.draws = s.draws + 1 := rfl
@[simp] theorem nextDraw_outcome (s : State) : s.nextDraw.outcome = s.outcome := rfl
@[simp] theorem nextDraw_faults (s : State) : s.nextDraw.faults = s.faults := rfl
@[simp] theorem nextDraw_readByte (s : State) (a : Nat) : s.nextDraw.readByte a = s.readByte a := rfl
@[simp] theorem nextDraw_v (s : State) (y : Nibble) : s.nextDraw.v y = s.v y := rfl
@[simp] theorem nextDraw_pixel (s : State) (c r : Nat) : s.nextDraw.pixel c r = s.pixel c r := rfl
@[simp] theorem nextDraw_key (s : State) (k : Nat) : s.nextDraw.key k = s.key k := rfl
@[simp] theorem nextDraw_entry (s : State) (k : Fin 16) : s.nextDraw.entry k = s.entry k := rfl

/-! ### note -/

@[simp] theorem note_mem (s : State) (d : Diag) : (s.note d).mem = s.mem := rfl
@[simp] theorem note_regs (s : State) (d : Diag) : (s.note d).regs = s.regs := rfl
@[simp] theorem note_i (s : State) (d : Diag) : (s.note d).i = s.i := rfl
@[simp] theorem note_pc (s : State) (d : Diag) : (s.note d).pc = s.pc := rfl
@[simp] theorem note_stack (s : State) (d : Diag) : (s.note d).stack = s.stack := rfl
@[simp] theorem note_sp (s : State) (d : Diag) : (s.note d).sp = s.sp := rfl
@[simp] theorem note_dt (s : State) (d : Diag) : (s.note d).dt = s.dt := rfl
@[simp] theorem note_st (s : State) (d : Diag) : (s.note d).st = s.st := rfl
@[simp] theorem note_fb (s : State) (d : Diag) : (s.note d).fb = s.fb := rfl
@[simp] theorem note_keys (s : State) (d : Diag) : (s.note d).keys = s.keys := rfl
@[simp] theorem note_romSize (s : State) (d : Diag) : (s.note d).romSize = s.romSize := rfl
@[simp] theorem note_redraw (s : State) (d : Diag) : (s.note d).redraw = s.redraw := rfl
@[simp] theorem note_config (s : State) (d : Diag) : (s.note d).config = s.config := rfl
@[simp] theorem note_draws (s : State) (d : Diag) : (s.note d).draws = s.draws := rfl
@[simp] theorem note_faults (s : State) (d : Diag) : (s.note d).faults = s.faults := rfl
@[simp] theorem note_readByte (s : State) (d : Diag) (a : Nat) : (s.note d).readByte a = s.readByte a := rfl
@[simp] theorem note_v (s : State) (d : Diag) (y : Nibble) : (s.note d).v y = s.v y := rfl
@[simp] theorem note_pixel (s : State) (d : Diag) (c r : Nat) : (s.note d).pixel c r = s.pixel c r := rfl
@[simp] theorem note_key (s : State) (d : Diag) (k : Nat) : (s.note d).key k = s.key k := rfl
@[simp] theorem note_entry (s : State) (d : Diag) (k : Fin 16) : (s.note d).entry k = s.entry k := rfl

/-! ### raiseFatal -/

@[simp] theorem raiseFatal_mem (s : State) (f : FatalKind) : (s.raiseFatal f).mem = s.mem := rfl
@[simp] theorem raiseFatal_regs (s : State) (f : FatalKind) : (s.raiseFatal f).regs = s.regs := rfl
@[simp] theorem raiseFatal_i (s : State) (f : FatalKind) : (s.raiseFatal f).i = s.i := rfl
@[simp] theorem raiseFatal_pc (s : State) (f : FatalKind) : (s.raiseFatal f).pc = s.pc := rfl
@[simp] theorem raiseFatal_stack (s : State) (f : FatalKind) : (s.raiseFatal f).stack = s.stack := rfl
@[simp] theorem raiseFatal_sp (s : State) (f : FatalKind) : (s.raiseFatal f).sp = s.sp := rfl
@[simp] theorem raiseFatal_dt (s : State) (f : FatalKind) : (s.raiseFatal f).dt = s.dt := rfl
@[simp] theorem raiseFatal_st (s : State) (f : FatalKind) : (s.raiseFatal f).st = s.st := rfl
@[simp] theorem raiseFatal_fb (s : State) (f : FatalKind) : (s.raiseFatal f).fb = s.fb := rfl
@[simp] theorem raiseFatal_keys (s : State) (f : FatalKind) : (s.raiseFatal f).keys = s.keys := rfl
@[simp] theorem raiseFatal_romSize (s : State) (f : FatalKind) : (s.raiseFatal f).romSize = s.romSize := rfl
@[simp] theorem raiseFatal_redraw (s : State) (f : FatalKind) : (s.raiseFatal f).redraw = s.redraw := rfl
@[simp] theorem raiseFatal_config (s : State) (f : FatalKind) : (s.raiseFatal f).config = s.config := rfl
@[simp] theorem raiseFatal_draws (s : State) (f : FatalKind) : (s.raiseFatal f).draws = s.draws := rfl
@[simp] theorem raiseFatal_outcome (s : State) (f : FatalKind) : (s.raiseFatal f).outcome = .fatal f := rfl
@[simp] theorem raiseFatal_faults (s : State) (f : FatalKind) : (s.raiseFatal f).faults = s.faults ++ [f] := rfl
@[simp] theorem raiseFatal_readByte (s : State) (f : FatalKind) (a : Nat) : (s.raiseFatal f).readByte a = s.readByte a := rfl
@[simp] theorem raiseFatal_v (s : State) (f : FatalKind) (y : Nibble) : (s.raiseFatal f).v y = s.v y := rfl
@[simp] theorem raiseFatal_pixel (s : State) (f : FatalKind) (c r : Nat) : (s.raiseFatal f).pixel c r = s.pixel c r := rfl
@[simp] theorem raiseFatal_key (s : State) (f : FatalKind) (k : Nat) : (s.raiseFatal f).key k = s.key k := rfl
@[simp] theorem raiseFatal_entry (s : State) (f : FatalKind) (k : Fin 16) : (s.raiseFatal f).entry k = s.entry k := rfl

/-! ### advance -/

@[simp] theorem advance_mem (s : State) : s.advance.mem = s.mem := rfl
@[simp] theorem advance_regs (s : State) : s.advance.regs = s.regs := rfl
@[simp] theorem advance_i (s : State) : s.advance.i = s.i := rfl
@[simp] theorem advance_pc (s : State) : s.advance.pc = s.pc + 2#16 := rfl
@[simp] theorem advance_stack (s : State) : s.advance.stack = s.stack := rfl
@[simp] theorem advance_sp (s : State) : s.advance.sp = s.sp := rfl
@[simp] theorem advance_dt (s : State) : s.advance.dt = s.dt := rfl
@[simp] theorem advance_st (s : State) : s.advance.st = s.st := rfl
@[simp] theorem advance_fb (s : State) : s.advance.fb = s.fb := rfl
@[simp] theorem advance_keys (s : State) : s.advance.keys = s.keys := rfl
@[simp] theorem advance_romSize (s : State) : s.advance.romSize = s.romSize := rfl
@[simp] theorem advance_redraw (s : State) : s.advance.redraw = s.redraw := rfl
@[simp] theorem advance_config (s : State) : s.advance.config = s.config := rfl
@[simp] theorem advance_draws (s : State) : s.advance.draws = s.draws := rfl
@[simp] theorem advance_outcome (s : State) : s.advance.outcome = .ok [] := rfl
@[simp] theorem advance_faults (s : State) : s.advance.faults = s.faults := rfl
@[simp] theorem advance_readByte (s : State) (a : Nat) : s.advance.readByte a = s.readByte a := rfl
@[simp] theorem advance_v (s : State) (y : Nibble) : s.advance.v y = s.v y := rfl
@[simp] theorem advance_pixel (s : State) (c r : Nat) : s.advance.pixel c r = s.pixel c r := rfl
@[simp] theorem advance_key (s : State) (k : Nat) : s.advance.key k = s.key k := rfl
@[simp] theorem advance_entry (s : State) (k : Fin 16) : s.advance.entry k = s.entry k := rfl

/-! ### writeByte -/

@[simp] theorem writeByte_regs (s : State) (a' : Nat) (b : Byte) : (s.writeByte a' b).regs = s.regs := rfl
@[simp] theorem writeByte_i (s : State) (a' : Nat) (b : Byte) : (s.writeByte a' b).i = s.i := rfl
@[simp] theorem writeByte_pc (s : State) (a' : Nat) (b : Byte) : (s.writeByte a' b).pc = s.pc := rfl
@[simp] theorem writeByte_stack (s : State) (a' : Nat) (b : Byte) : (s.writeByte a' b).stack = s.stack := rfl
@[simp] theorem writeByte_sp (s : State) (a' : Nat) (b : Byte) : (s.writeByte a' b).sp = s.sp := rfl
@[simp] theorem writeByte_dt (s : State) (a' : Nat) (b : Byte) : (s.writeByte a' b).dt = s.dt := rfl
@[simp] theorem writeByte_st (s : State) (a' : Nat) (b : Byte) : (s.writeByte a' b).st = s.st := rfl
@[simp] theorem writeByte_fb (s : State) (a' : Nat) (b : Byte) : (s.writeByte a' b).fb = s.fb := rfl
@[simp] theorem writeByte_keys (s : State) (a' : Nat) (b : Byte) : (s.writeByte a' b).keys = s.keys := rfl
@[simp] theorem writeByte_romSize (s : State) (a' : Nat) (b : Byte) : (s.writeByte a' b).romSize = s.romSize := rfl
@[simp] theorem writeByte_redraw (s : State) (a' : Nat) (b : Byte) : (s.writeByte a' b).redraw = s.redraw := rfl
@[simp] theorem writeByte_config (s : State) (a' : Nat) (b : Byte) : (s.writeByte a' b).config = s.config := rfl
@[simp] theorem writeByte_draws (s : State) (a' : Nat) (b : Byte) : (s.writeByte a' b).draws = s.draws := rfl
@[simp] theorem writeByte_outcome (s : State) (a' : Nat) (b : Byte) : (s.writeByte a' b).outcome = s.outcome := rfl
@[simp] theorem writeByte_faults (s : State) (a' : Nat) (b : Byte) : (s.writeByte a' b).faults = s.faults := rfl
@[simp] theorem writeByte_v (s : State) (a' : Nat) (b : Byte) (y : Nibble) : (s.writeByte a' b).v y = s.v y := rfl
@[simp] theorem writeByte_pixel (s : State) (a' : Nat) (b : Byte) (c r : Nat) : (s.writeByte a' b).pixel c r = s.pixel c r := rfl
@[simp] theorem writeByte_key (s : State) (a' : Nat) (b : Byte) (k : Nat) : (s.writeByte a' b).key k = s.key k := rfl
@[simp] theorem writeByte_entry (s : State) (a' : Nat) (b : Byte) (k : Fin 16) : (s.writeByte a' b).entry k = s.entry k := rfl

end Sys2Proof.Machine
end

