-- ==== Sys2Proof/Laws/Mem.lean ====
section
/-! SUPPORT. The laws of memory: reading after writing, and the canonical form, which every memory operation keeps
(spec/20_memory.md R36, R42, R43). -/

namespace Sys2Proof.Machine

/-- Addresses strictly rising. -/
abbrev Mem.rising (m : Mem) : Prop := m.Pairwise (fun c c' => c.1 < c'.1)

theorem Mem.find_eq_none {a : Nat} {m : Mem} (h : ∀ c ∈ m, c.1 ≠ a) : m.find a = none := by
  induction m with
  | nil => rfl
  | cons c m ih =>
    have h1 := h c (by simp)
    simp only [Mem.find, if_neg (Ne.symm h1)]
    exact ih fun d hd => h d (by simp [hd])

theorem Mem.find_isSome_mem {a : Nat} {b : Byte} {m : Mem} (h : m.find a = some b) : (a, b) ∈ m := by
  induction m with
  | nil => simp [Mem.find] at h
  | cons c m ih =>
    simp only [Mem.find] at h
    split at h
    · rename_i hc; subst hc; simp at h; subst h; simp
    · simp [ih h]

/-- The address a cell of `m.put a ob` has is `a`, or an address `m` lists. -/
theorem Mem.mem_put {a : Nat} {ob : Option Byte} {m : Mem} {c : Host.Cell} (h : c ∈ m.put a ob) :
    (c.1 = a ∧ ob = some c.2) ∨ c ∈ m := by
  induction m with
  | nil => cases ob <;> simp [Mem.put] at h; left; simp [h]
  | cons d m ih =>
    simp only [Mem.put] at h
    split at h
    · cases ob <;> simp at h
      · right; simpa using h
      · rcases h with h | h | h
        · left; simp [h]
        · right; simp [h]
        · right; simp [h]
    · split at h
      · cases ob <;> simp at h
        · right; simp [h]
        · rcases h with h | h
          · left; simp [h]
          · right; simp [h]
      · simp at h
        rcases h with h | h
        · right; simp [h]
        · rcases ih h with h | h
          · left; exact h
          · right; simp [h]

theorem Mem.rising_put {a : Nat} {ob : Option Byte} {m : Mem} (h : m.rising) : (m.put a ob).rising := by
  induction m with
  | nil => cases ob <;> simp [Mem.put]
  | cons d m ih =>
    have h' := List.pairwise_cons.mp h
    simp only [Mem.put]
    split
    · rename_i hlt
      cases ob
      · simpa using h
      · simp only [Option.toList_some, List.map_cons, List.map_nil, List.cons_append, List.nil_append]
        refine List.pairwise_cons.mpr ⟨fun c hc => ?_, h⟩
        rcases List.mem_cons.mp hc with rfl | hc
        · exact hlt
        · exact lt_trans hlt (h'.1 c hc)
    · split
      · rename_i _ heq
        cases ob
        · simpa using h'.2
        · simp only [Option.toList_some, List.map_cons, List.map_nil, List.cons_append, List.nil_append]
          exact List.pairwise_cons.mpr ⟨fun c hc => by simpa [heq] using h'.1 c hc, h'.2⟩
      · rename_i hn he
        refine List.pairwise_cons.mpr ⟨fun c hc => ?_, ih h'.2⟩
        rcases Mem.mem_put hc with ⟨hc, -⟩ | hc
        · simp only [hc]; omega
        · exact h'.1 c hc

/-- Reading back after a write of one cell. -/
theorem Mem.find_put {a : Nat} {ob : Option Byte} {m : Mem} (h : m.rising) (c : Nat) :
    (m.put a ob).find c = if c = a then ob else m.find c := by
  induction m with
  | nil => cases ob <;> simp [Mem.put, Mem.find]
  | cons d m ih =>
    have h' := List.pairwise_cons.mp h
    have hgt : ∀ e, e ≤ d.1 → Mem.find e m = none := fun e he =>
      Mem.find_eq_none fun x hx => by have := h'.1 x hx; omega
    simp only [Mem.put]
    split
    · rename_i hlt
      cases ob
      · simp only [Option.toList_none, List.map_nil, List.nil_append, Mem.find]
        split_ifs <;> first | rfl | omega | exact hgt c (by omega)
      · simp only [Option.toList_some, List.map_cons, List.map_nil, List.cons_append, List.nil_append, Mem.find]
    · split
      · rename_i _ heq
        cases ob
        · simp only [Option.toList_none, List.map_nil, List.nil_append, Mem.find]
          split_ifs <;> first | rfl | omega | exact hgt c (by omega)
        · simp only [Option.toList_some, List.map_cons, List.map_nil, List.cons_append, List.nil_append, Mem.find]
          split_ifs <;> first | rfl | omega
      · simp only [Mem.find, ih h'.2]
        split_ifs <;> first | rfl | omega

/-- Writing one cell keeps the canonical form. -/
theorem Mem.wf_put {dflt : Nat → Byte} {a : Nat} {b : Byte} {m : Mem} (h : m.wf dflt) (ha : a < 4096) :
    (m.put a (if b = dflt a then none else some b)).wf dflt := by
  refine ⟨Mem.rising_put h.1, fun c hc => ?_⟩
  rcases Mem.mem_put hc with ⟨h1, h2⟩ | hc
  · split at h2
    · simp at h2
    · rename_i hne
      simp only [Option.some.injEq] at h2
      rw [h1, ← h2]
      exact ⟨ha, hne⟩
  · exact h.2 c hc

/-- Memories in canonical form that read alike are equal. -/
theorem Mem.eq_of_find_eq {m m' : Mem} (h : m.rising) (h' : m'.rising) (he : ∀ a, m.find a = m'.find a) : m = m' := by
  induction m generalizing m' with
  | nil =>
    cases m' with
    | nil => rfl
    | cons d m' => have := he d.1; simp [Mem.find] at this
  | cons c m ih =>
    cases m' with
    | nil => have := he c.1; simp [Mem.find] at this
    | cons d m' =>
      have hc := List.pairwise_cons.mp h
      have hd := List.pairwise_cons.mp h'
      have h1 := he c.1
      have h2 := he d.1
      simp only [Mem.find, if_true] at h1 h2
      have hcd : c.1 = d.1 := by
        by_contra hne
        rw [if_neg hne] at h1
        rw [if_neg (Ne.symm hne)] at h2
        have h3 := hd.1 _ (Mem.find_isSome_mem h1.symm)
        have h4 := hc.1 _ (Mem.find_isSome_mem h2)
        simp only at h3 h4
        omega
      have hv : c.2 = d.2 := by rw [if_pos hcd] at h1; simpa using h1
      have hcons : c = d := Prod.ext hcd hv
      subst hcons
      congr 1
      refine ih hc.2 hd.2 fun a => ?_
      by_cases ha : a = c.1
      · subst ha
        rw [Mem.find_eq_none fun x hx => by have := hc.1 x hx; omega,
          Mem.find_eq_none fun x hx => by have := hd.1 x hx; omega]
      · have := he a
        simpa [Mem.find, ha] using this

/-- The memory of a state is in canonical form over its reset contents. -/
abbrev State.memWf (s : State) : Prop := s.mem.wf (resetByte s.config.font)

theorem readByte_writeByte {s : State} (h : s.memWf) (a : Nat) (b : Byte) (c : Nat) :
    (s.writeByte a b).readByte c = if c = a then b else s.readByte c := by
  simp only [State.readByte, State.writeByte, Mem.find_put h.1]
  split_ifs with h1 h2 <;> simp_all

theorem memWf_writeByte {s : State} (h : s.memWf) {a : Nat} (ha : a < 4096) (b : Byte) : (s.writeByte a b).memWf :=
  Mem.wf_put h ha

/-- All that a block of writes changes is memory. -/
theorem writeBytes_eq (s : State) (a : Nat) (bs : List Byte) :
    s.writeBytes a bs = { s with mem := (s.writeBytes a bs).mem } := by
  induction bs generalizing s a with
  | nil => rfl
  | cons b bs ih => rw [State.writeBytes, ih]; rfl

theorem memWf_writeBytes {s : State} (h : s.memWf) {a : Nat} {bs : List Byte} (ha : a + bs.length ≤ 4096) :
    (s.writeBytes a bs).memWf := by
  induction bs generalizing s a with
  | nil => exact h
  | cons b bs ih =>
    simp only [List.length_cons] at ha
    exact ih (memWf_writeByte h (by omega) b) (by omega)

/-- Reading after a block of writes at ascending addresses. -/
theorem readByte_writeBytes {s : State} (h : s.memWf) {a : Nat} {bs : List Byte} (ha : a + bs.length ≤ 4096) (c : Nat) :
    (s.writeBytes a bs).readByte c = if a ≤ c ∧ c < a + bs.length then bs.getD (c - a) 0#8 else s.readByte c := by
  induction bs generalizing s a with
  | nil => rw [if_neg (by simp only [List.length_nil]; omega)]; rfl
  | cons b bs ih =>
    simp only [List.length_cons] at ha ⊢
    rw [State.writeBytes, ih (memWf_writeByte h (by omega) b) (by omega), readByte_writeByte h]
    by_cases h1 : c = a
    · subst h1
      rw [if_neg (by omega), if_pos rfl, if_pos (by omega)]; simp
    · by_cases h2 : a ≤ c ∧ c < a + (bs.length + 1)
      · obtain ⟨k, rfl⟩ : ∃ k, c = a + 1 + k := ⟨c - (a + 1), by omega⟩
        rw [if_pos (by omega), if_pos h2]
        have e1 : a + 1 + k - (a + 1) = k := by omega
        have e2 : a + 1 + k - a = k + 1 := by omega
        simp [e1, e2]
      · rw [if_neg (by omega), if_neg h1, if_neg h2]

theorem length_readBytes (s : State) (a n : Nat) : (s.readBytes a n).length = n := by
  induction n generalizing a with
  | zero => rfl
  | succ n ih => simp [State.readBytes, ih]

theorem getD_readBytes (s : State) (a n k : Nat) (h : k < n) : (s.readBytes a n).getD k 0#8 = s.readByte (a + k) := by
  induction n generalizing a k with
  | zero => omega
  | succ n ih =>
    cases k with
    | zero => simp [State.readBytes]
    | succ k =>
      have := ih (a + 1) k (by omega)
      rw [State.readBytes, List.getD_cons_succ, this]
      congr 1
      omega

end Sys2Proof.Machine
end

