-- ==== Sys2Proof/Laws/Ops.lean ====
section
/-! SUPPORT. One lemma per shared operation that says what it does to the observers of the state: registers, pixels,
stack, timers, keys, and the flag-writing ALU operation. -/

namespace Sys2Proof.Machine

/-! ### Registers -/

theorem v_setV (s : State) (x y : Nibble) (b : Byte) : (s.setV x b).v y = if y = x then b else s.v y := by
  simp only [State.v, State.setV, Vector.getElem_set]
  by_cases h : y = x
  · simp [h]
  · rw [if_neg h, if_neg]
    intro h'
    exact h (BitVec.eq_of_toNat_eq h'.symm)

@[simp] theorem v_setV_self (s : State) (x : Nibble) (b : Byte) : (s.setV x b).v x = b := by simp [v_setV]

theorem v_setV_of_ne (s : State) {x y : Nibble} (b : Byte) (h : y ≠ x) : (s.setV x b).v y = s.v y := by
  simp [v_setV, h]

/-- Register files that read alike are equal. -/
theorem regs_eq_of_v {s t : State} (h : ∀ y, t.v y = s.v y) : t.regs = s.regs := by
  apply Vector.ext
  intro k hk
  have := h (BitVec.ofNat 4 k)
  simpa [State.v, Nat.mod_eq_of_lt (show k < 16 by simpa using hk)] using this

/-- All that a block of register writes changes is the registers. -/
theorem writeRegs_eq (s : State) (k : Nat) (bs : List Byte) :
    s.writeRegs k bs = { s with regs := (s.writeRegs k bs).regs } := by
  induction bs generalizing s k with
  | nil => rfl
  | cons b bs ih => rw [State.writeRegs, ih]; rfl

/-- A register after a block of writes of `bs` at registers `k`, `k+1`, … . -/
theorem v_writeRegs (s : State) (k : Nat) (bs : List Byte) (hk : k + bs.length ≤ 16) (y : Nibble) :
    (s.writeRegs k bs).v y
      = if k ≤ y.toNat ∧ y.toNat < k + bs.length then bs.getD (y.toNat - k) 0#8 else s.v y := by
  induction bs generalizing s k with
  | nil => rw [if_neg (by simp only [List.length_nil]; omega)]; rfl
  | cons b bs ih =>
    simp only [List.length_cons] at hk ⊢
    have hk16 : (BitVec.ofNat 4 k).toNat = k := by simp [BitVec.toNat_ofNat, Nat.mod_eq_of_lt (show k < 16 by omega)]
    rw [State.writeRegs, ih _ _ (by omega), v_setV]
    by_cases h1 : y = BitVec.ofNat 4 k
    · subst h1
      rw [hk16, if_neg (by omega), if_pos rfl, if_pos (by omega)]; simp
    · have hne : y.toNat ≠ k := fun h => h1 (BitVec.eq_of_toNat_eq (by rw [hk16, h]))
      by_cases h2 : k ≤ y.toNat ∧ y.toNat < k + (bs.length + 1)
      · obtain ⟨j, hj⟩ : ∃ j, y.toNat = k + 1 + j := ⟨y.toNat - (k + 1), by omega⟩
        have e1 : k + 1 + j - (k + 1) = j := by omega
        have e2 : k + 1 + j - k = j + 1 := by omega
        rw [hj] at h2 ⊢
        rw [if_pos (by omega), if_pos h2, e1, e2]; simp
      · rw [if_neg (by omega), if_neg h1, if_neg h2]

@[simp] theorem length_lowRegs (s : State) (n : Nat) : (s.lowRegs n).length = n := by simp [State.lowRegs]

theorem getD_lowRegs (s : State) (n k : Nat) (h : k < n) : (s.lowRegs n).getD k 0#8 = s.v (BitVec.ofNat 4 k) := by
  simp [State.lowRegs, h]

/-! ### Stack -/

/-- A push at a depth below 16 writes the entry at SP and increments SP. -/
theorem push_of_lt (s : State) (w : Word) (h : s.sp.val < 16) :
    s.push w = some { s with stack := s.stack.set s.sp.val w h, sp := ⟨s.sp.val + 1, by omega⟩ } := by
  simp [State.push, h]

/-- A push at depth 16 fails. -/
theorem push_of_full (s : State) (w : Word) (h : s.sp.val = 16) : s.push w = none := by simp [State.push, h]

/-- A pop at depth 0 fails. -/
theorem pop_of_empty (s : State) (h : s.sp.val = 0) : s.pop = none := by simp [State.pop, h]

/-- A pop at a depth above 0 reads the entry below SP and decrements SP. -/
theorem pop_of_pos (s : State) (h : s.sp.val ≠ 0) :
    s.pop = some (s.entry ⟨s.sp.val - 1, by have := s.sp.isLt; omega⟩,
      { s with sp := ⟨s.sp.val - 1, by have := s.sp.isLt; omega⟩ }) := by
  simp [State.pop, State.entry, h]

/-! ### Timers -/

/-- A tick on the natural numbers: 0 stays 0. -/
theorem toNat_tickDown (b : Byte) : (tickDown b).toNat = b.toNat - 1 := by
  unfold tickDown
  split
  · rename_i h; simp [h]
  · rename_i h
    have : b.toNat ≠ 0 := fun h' => h (BitVec.eq_of_toNat_eq h')
    have := b.isLt
    simp only [BitVec.toNat_sub, BitVec.toNat_ofNat]
    omega

/-! ### Framebuffer -/

theorem pixel_setPixel (s : State) (c r : Nat) (p : Bool) (c' r' : Nat) :
    (s.setPixel c r p).pixel c' r' = if c' = c ∧ r' = r ∧ c < 64 ∧ r < 32 then p else s.pixel c' r' := by
  unfold State.setPixel
  split
  · rename_i h
    unfold State.pixel
    by_cases h' : c' < 64 ∧ r' < 32
    · simp only [h', and_self, dite_true, Vector.getElem_set, h, and_true]
      by_cases hc : c = c'
      · subst hc
        simp only [if_true, Vector.getElem_set, true_and]
        simp only [eq_comm]
      · simp [hc, Ne.symm hc]
    · rw [dif_neg h', dif_neg h', if_neg]
      rintro ⟨rfl, rfl, h1, h2⟩
      exact h' ⟨h1, h2⟩
  · rename_i h
    rw [if_neg]
    rintro ⟨-, -, h1, h2⟩
    exact h ⟨h1, h2⟩

@[simp] theorem pixel_clearPixels (s : State) (c r : Nat) : s.clearPixels.pixel c r = false := by
  simp [State.clearPixels, State.pixel]

/-- A pixel outside the framebuffer reads 0. -/
theorem pixel_of_out (s : State) {c r : Nat} (h : ¬(c < 64 ∧ r < 32)) : s.pixel c r = false := by
  simp only [State.pixel, dif_neg h]

/-! ### Keypad -/

/-- The first pressed key is pressed, and no lower key is. -/
theorem firstKey_eq_some {s : State} {k : Nat} (h : s.firstKey = some k) :
    k < 16 ∧ s.key k = true ∧ ∀ j < k, s.key j = false := by
  simp only [State.firstKey, List.find?_range_eq_some, Config.numKeys] at h
  exact ⟨by simpa using h.2.1, by simpa using h.1, fun j hj => by simpa using h.2.2 j hj⟩

/-- With no first pressed key, no key is pressed. -/
theorem firstKey_eq_none {s : State} (h : s.firstKey = none) : ∀ k < 16, s.key k = false := by
  simpa [State.firstKey] using h

/-! ### The flag-writing ALU operation (R86) -/

/-- All that it changes is the registers. -/
theorem flagAlu_eq (s : State) (x y : Nibble) (f r : Byte → Byte → Byte) :
    s.flagAlu x y f r = { s with regs := (s.flagAlu x y f r).regs } := by
  unfold State.flagAlu
  cases s.config.aluSelfRef <;> rfl

/-- It writes no register but Vx and VF. -/
theorem v_flagAlu_of_ne (s : State) (x y : Nibble) (f r : Byte → Byte → Byte) {z : Nibble} (hx : z ≠ x)
    (hf : z ≠ Config.vf) : (s.flagAlu x y f r).v z = s.v z := by
  unfold State.flagAlu
  cases s.config.aluSelfRef <;> simp [v_setV, hx, hf]

end Sys2Proof.Machine
end

