-- ==== Sys2Proof/Laws/Display.lean ====
section
/-! SUPPORT. What the pieces of the sprite renderer do (spec/44_display.md R108 to R113): their frames, the pixels they
leave, and the collision flag. -/

namespace Sys2Proof.Machine

/-! ### Frames -/

theorem setPixel_eq (s : State) (c r : Nat) (p : Bool) : s.setPixel c r p = { s with fb := (s.setPixel c r p).fb } := by
  unfold State.setPixel
  split <;> rfl

/-- All that one pixel changes is the framebuffer and VF. -/
theorem blitPixel_eq (s : State) (col row : Nat) (bit : Bool) :
    s.blitPixel col row bit
      = { s with fb := (s.blitPixel col row bit).fb, regs := (s.blitPixel col row bit).regs } := by
  unfold State.blitPixel
  cases bit && s.pixel col row <;> (simp only; rw [setPixel_eq]; rfl)

theorem foldl_eq {α : Type} {f : State → α → State} (hf : ∀ s a, f s a = { s with fb := (f s a).fb, regs := (f s a).regs })
    (l : List α) (s : State) : l.foldl f s = { s with fb := (l.foldl f s).fb, regs := (l.foldl f s).regs } := by
  induction l generalizing s with
  | nil => rfl
  | cons a l ih => rw [List.foldl_cons, ih, hf]

/-- All that one row changes is the framebuffer and VF. -/
theorem blitRow_eq (s : State) (x0 row : Nat) (b : Byte) :
    s.blitRow x0 row b = { s with fb := (s.blitRow x0 row b).fb, regs := (s.blitRow x0 row b).regs } :=
  foldl_eq (fun _ _ => blitPixel_eq _ _ _ _) _ _

/-- All that the rows change is the framebuffer and VF. -/
theorem blitRows_eq (s : State) (x0 y0 rows : Nat) :
    s.blitRows x0 y0 rows
      = { s with fb := (s.blitRows x0 y0 rows).fb, regs := (s.blitRows x0 y0 rows).regs } :=
  foldl_eq (fun _ _ => blitRow_eq _ _ _ _) _ _

/-! ### One pixel -/

theorem pixel_blitPixel (s : State) {col row : Nat} (bit : Bool) (hc : col < 64) (hr : row < 32) (c r : Nat) :
    (s.blitPixel col row bit).pixel c r = (s.pixel c r ^^ (decide (c = col ∧ r = row) && bit)) := by
  unfold State.blitPixel
  by_cases h : c = col ∧ r = row
  · obtain ⟨rfl, rfl⟩ := h
    cases bit <;> cases hp : s.pixel c r <;> simp [pixel_setPixel, hc, hr, hp]
  · have h' : ¬(c = col ∧ r = row ∧ col < 64 ∧ row < 32) := fun h'' => h ⟨h''.1, h''.2.1⟩
    cases bit && s.pixel col row <;> simp [pixel_setPixel, h, h']

theorem v_blitPixel (s : State) (col row : Nat) (bit : Bool) (y : Nibble) :
    (s.blitPixel col row bit).v y = if y = Config.vf ∧ bit = true ∧ s.pixel col row = true then 1#8 else s.v y := by
  unfold State.blitPixel
  cases bit <;> cases s.pixel col row <;> simp [v_setV]

/-! ### The first columns of a row -/

/-- The first `k` columns of a row, in order. -/
abbrev State.blitCols (s : State) (x0 row : Nat) (b : Byte) (k : Nat) : State :=
  (List.range k).foldl (fun t c => t.blitPixel ((x0 + c) % Config.displayW) row (spriteBit b c)) s

theorem blitCols_succ (s : State) (x0 row : Nat) (b : Byte) (k : Nat) :
    s.blitCols x0 row b (k + 1) = (s.blitCols x0 row b k).blitPixel ((x0 + k) % 64) row (spriteBit b k) := by
  simp [State.blitCols, List.range_succ]

/-- The sprite bit that the first `k` columns of a row lay over column `c`. -/
abbrev rowCovers (x0 : Nat) (b : Byte) (k c : Nat) : Prop := ∃ j < k, c = (x0 + j) % 64 ∧ spriteBit b j = true

theorem pixel_blitCols (s : State) (x0 : Nat) {row : Nat} (b : Byte) {k : Nat} (hk : k ≤ 64) (hr : row < 32)
    (c r : Nat) : (s.blitCols x0 row b k).pixel c r = (s.pixel c r ^^ decide (r = row ∧ rowCovers x0 b k c)) := by
  induction k with
  | zero => simp [rowCovers, State.blitCols]
  | succ k ih =>
    rw [blitCols_succ, pixel_blitPixel _ _ (Nat.mod_lt _ (by omega)) hr, ih (by omega), Bool.xor_assoc]
    congr 1
    by_cases h : c = (x0 + k) % 64 ∧ r = row
    · obtain ⟨rfl, rfl⟩ := h
      have hnone : ¬rowCovers x0 b k ((x0 + k) % 64) := by
        rintro ⟨j, hj, he, -⟩
        omega
      cases hb : spriteBit b k
      · have : ¬rowCovers x0 b (k + 1) ((x0 + k) % 64) := by
          rintro ⟨j, hj, he, hbj⟩
          rcases Nat.lt_succ_iff_lt_or_eq.mp hj with hj | rfl
          · exact hnone ⟨j, hj, he, hbj⟩
          · simp [hb] at hbj
        simp [hnone, this]
      · have : rowCovers x0 b (k + 1) ((x0 + k) % 64) := ⟨k, by omega, rfl, hb⟩
        simp [hnone, this]
    · have : (r = row ∧ rowCovers x0 b (k + 1) c) ↔ (r = row ∧ rowCovers x0 b k c) := by
        constructor
        · rintro ⟨h1, j, hj, he, hb⟩
          refine ⟨h1, j, ?_, he, hb⟩
          rcases Nat.lt_succ_iff_lt_or_eq.mp hj with hj | rfl
          · exact hj
          · exact absurd ⟨he, h1⟩ h
        · rintro ⟨h1, j, hj, he, hb⟩
          exact ⟨h1, j, by omega, he, hb⟩
      simp [h, this]

/-- Some of the first `k` columns of a row lays a 1 over a pixel 1 (R113). -/
def State.rowHits (s : State) (x0 row : Nat) (b : Byte) (k : Nat) : Bool :=
  (List.range k).any (fun j => spriteBit b j && s.pixel ((x0 + j) % 64) row)

theorem rowHits_succ (s : State) (x0 row : Nat) (b : Byte) (k : Nat) :
    s.rowHits x0 row b (k + 1) = (s.rowHits x0 row b k || (spriteBit b k && s.pixel ((x0 + k) % 64) row)) := by
  simp [State.rowHits, List.range_succ]

theorem v_blitCols (s : State) (x0 : Nat) {row : Nat} (b : Byte) {k : Nat} (hk : k ≤ 64) (hr : row < 32) (y : Nibble) :
    (s.blitCols x0 row b k).v y = if y = Config.vf ∧ s.rowHits x0 row b k = true then 1#8 else s.v y := by
  induction k with
  | zero => simp [State.blitCols, State.rowHits]
  | succ k ih =>
    have hp : (s.blitCols x0 row b k).pixel ((x0 + k) % 64) row = s.pixel ((x0 + k) % 64) row := by
      rw [pixel_blitCols s x0 b (by omega) hr]
      have : ¬rowCovers x0 b k ((x0 + k) % 64) := by rintro ⟨j, hj, he, -⟩; omega
      simp [this]
    rw [blitCols_succ, v_blitPixel, hp, ih (by omega), rowHits_succ]
    cases s.rowHits x0 row b k <;> cases spriteBit b k <;> cases s.pixel ((x0 + k) % 64) row <;> simp
    exact fun h1 h2 => absurd h1 h2

/-! ### A row -/

theorem pixel_blitRow (s : State) (x0 : Nat) {row : Nat} (b : Byte) (hr : row < 32) (c r : Nat) :
    (s.blitRow x0 row b).pixel c r = (s.pixel c r ^^ decide (r = row ∧ rowCovers x0 b 8 c)) :=
  pixel_blitCols s x0 b (by omega) hr c r

theorem v_blitRow (s : State) (x0 : Nat) {row : Nat} (b : Byte) (hr : row < 32) (y : Nibble) :
    (s.blitRow x0 row b).v y = if y = Config.vf ∧ s.rowHits x0 row b 8 = true then 1#8 else s.v y :=
  v_blitCols s x0 b (by omega) hr y

/-! ### The rows -/

theorem blitRows_succ (s : State) (x0 y0 k : Nat) :
    s.blitRows x0 y0 (k + 1) = (s.blitRows x0 y0 k).blitRow x0 (y0 + k) (s.readByte (s.indexAddr + k)) := by
  have h : (s.blitRows x0 y0 k).readByte ((s.blitRows x0 y0 k).indexAddr + k) = s.readByte (s.indexAddr + k) := by
    rw [blitRows_eq]; rfl
  rw [State.blitRows, List.range_succ, List.foldl_append, List.foldl_cons, List.foldl_nil]
  exact congrArg _ h

/-- The pixels after the rows are drawn: in row `y0 + j` the sprite row `j` is laid over the old pixels by XOR. -/
theorem pixel_blitRows (s : State) (x0 : Nat) {y0 rows : Nat} (h : y0 + rows ≤ 32) (c r : Nat) :
    (s.blitRows x0 y0 rows).pixel c r
      = (s.pixel c r ^^ decide (y0 ≤ r ∧ r < y0 + rows ∧ rowCovers x0 (s.readByte (s.indexAddr + (r - y0))) 8 c)) := by
  induction rows with
  | zero =>
    have : ¬(y0 ≤ r ∧ r < y0 + 0 ∧ rowCovers x0 (s.readByte (s.indexAddr + (r - y0))) 8 c) := fun h => by omega
    rw [decide_eq_false this, Bool.xor_false]
    rfl
  | succ k ih =>
    rw [blitRows_succ, pixel_blitRow _ _ _ (by omega), ih (by omega), Bool.xor_assoc]
    congr 1
    by_cases hr : r = y0 + k
    · subst hr
      have : y0 + k - y0 = k := by omega
      simp [this]
    · have : (r < y0 + (k + 1)) ↔ (r < y0 + k) := by omega
      simp [hr, this]

/-- Some of the first `rows` rows of a sprite lays a 1 over a pixel 1: a collision (R113). -/
def State.rowsHit (s : State) (x0 y0 rows : Nat) : Bool :=
  (List.range rows).any (fun k => s.rowHits x0 (y0 + k) (s.readByte (s.indexAddr + k)) 8)

theorem rowsHit_succ (s : State) (x0 y0 k : Nat) :
    s.rowsHit x0 y0 (k + 1)
      = (s.rowsHit x0 y0 k || s.rowHits x0 (y0 + k) (s.readByte (s.indexAddr + k)) 8) := by
  simp [State.rowsHit, List.range_succ]

/-- The registers after the rows are drawn: VF becomes 1 on a collision, and no register changes otherwise. -/
theorem v_blitRows (s : State) (x0 : Nat) {y0 rows : Nat} (h : y0 + rows ≤ 32) (y : Nibble) :
    (s.blitRows x0 y0 rows).v y = if y = Config.vf ∧ s.rowsHit x0 y0 rows = true then 1#8 else s.v y := by
  induction rows with
  | zero => simp [State.blitRows, State.rowsHit]
  | succ k ih =>
    have hp : ∀ c, (s.blitRows x0 y0 k).pixel c (y0 + k) = s.pixel c (y0 + k) := fun c => by
      rw [pixel_blitRows s x0 (by omega)]; simp
    have hh : (s.blitRows x0 y0 k).rowHits x0 (y0 + k) (s.readByte (s.indexAddr + k)) 8
        = s.rowHits x0 (y0 + k) (s.readByte (s.indexAddr + k)) 8 := by
      simp only [State.rowHits, hp]
    rw [blitRows_succ, v_blitRow _ _ _ (by omega), ih (by omega), hh, rowsHit_succ]
    cases s.rowsHit x0 y0 k <;> cases s.rowHits x0 (y0 + k) (s.readByte (s.indexAddr + k)) 8 <;> simp
    exact fun h1 h2 => absurd h1 h2

/-- The rows drawn all lie on the screen. -/
theorem spriteRow_add_spriteRows_le (s : State) (y n : Nibble) : s.spriteRow y + s.spriteRows y n ≤ 32 := by
  simp only [State.spriteRows, State.spriteRow, Config.displayH]
  omega

end Sys2Proof.Machine
end

