-- ==== Sys2Proof/Laws/Frames.lean ====
section
/-! SUPPORT. The frame of each shared operation: which parts of the state it leaves alone (`KeepsAllBut`), and how
frames compose. -/

namespace Sys2Proof.Machine

/-! ### Composition -/

theorem KeepsAllBut.refl (ps : List Part) (s : State) : KeepsAllBut ps s s := by
  intro p _
  cases p <;> simp [SamePart]

theorem SamePart.trans {p : Part} {s t u : State} (h : SamePart p s t) (h' : SamePart p t u) : SamePart p s u := by
  cases p <;> simp_all [SamePart]

theorem KeepsAllBut.trans {ps : List Part} {s t u : State} (h : KeepsAllBut ps s t) (h' : KeepsAllBut ps t u) :
    KeepsAllBut ps s u := fun p hp => (h p hp).trans (h' p hp)

theorem KeepsAllBut.mono {ps qs : List Part} {s t : State} (h : KeepsAllBut ps s t) (hs : ps ⊆ qs) :
    KeepsAllBut qs s t := fun p hp => h p fun hp' => hp (hs hp')

/-! ### The frame of a record that differs in some fields only -/

theorem keepsAllBut_regs {s t : State} (h : t = { s with regs := t.regs }) : KeepsAllBut [.regs] s t := by
  intro p hp
  rw [h]
  cases p <;> first | rfl | (intro _; rfl) | (intro _ _; rfl) | simp at hp

theorem keepsAllBut_mem {s t : State} (h : t = { s with mem := t.mem }) : KeepsAllBut [.mem] s t := by
  intro p hp
  rw [h]
  cases p <;> first | rfl | (intro _; rfl) | (intro _ _; rfl) | simp at hp

theorem keepsAllBut_fb_regs {s t : State} (h : t = { s with fb := t.fb, regs := t.regs }) :
    KeepsAllBut [.fb, .regs] s t := by
  intro p hp
  rw [h]
  cases p <;> first | rfl | (intro _; rfl) | simp at hp

/-! ### The frame of each operation -/

theorem keepsAllBut_setV (s : State) (x : Nibble) (b : Byte) : KeepsAllBut [.regs] s (s.setV x b) :=
  keepsAllBut_regs rfl

theorem keepsAllBut_writeRegs (s : State) (k : Nat) (bs : List Byte) : KeepsAllBut [.regs] s (s.writeRegs k bs) :=
  keepsAllBut_regs (writeRegs_eq s k bs)

theorem keepsAllBut_flagAlu (s : State) (x y : Nibble) (f r : Byte → Byte → Byte) :
    KeepsAllBut [.regs] s (s.flagAlu x y f r) := keepsAllBut_regs (flagAlu_eq s x y f r)

theorem keepsAllBut_writeBytes (s : State) (a : Nat) (bs : List Byte) : KeepsAllBut [.mem] s (s.writeBytes a bs) :=
  keepsAllBut_mem (writeBytes_eq s a bs)

theorem keepsAllBut_blitRows (s : State) (x0 y0 rows : Nat) : KeepsAllBut [.fb, .regs] s (s.blitRows x0 y0 rows) :=
  keepsAllBut_fb_regs (blitRows_eq s x0 y0 rows)

theorem keepsAllBut_setPc (s : State) (w : Word) : KeepsAllBut [.pc] s (s.setPc w) := by
  intro p hp
  cases p <;> first | rfl | (intro _; rfl) | (intro _ _; rfl) | simp at hp

theorem keepsAllBut_skipIf (s : State) (c : Bool) : KeepsAllBut [.pc] s (s.skipIf c) := by
  cases c
  · exact KeepsAllBut.refl _ _
  · exact keepsAllBut_setPc _ _

theorem keepsAllBut_setI (s : State) (w : Word) : KeepsAllBut [.i] s (s.setI w) := by
  intro p hp
  cases p <;> first | rfl | (intro _; rfl) | (intro _ _; rfl) | simp at hp

theorem keepsAllBut_setDt (s : State) (b : Byte) : KeepsAllBut [.dt] s (s.setDt b) := by
  intro p hp
  cases p <;> first | rfl | (intro _; rfl) | (intro _ _; rfl) | simp at hp

theorem keepsAllBut_setSt (s : State) (b : Byte) : KeepsAllBut [.st] s (s.setSt b) := by
  intro p hp
  cases p <;> first | rfl | (intro _; rfl) | (intro _ _; rfl) | simp at hp

theorem keepsAllBut_tick (s : State) : KeepsAllBut [.dt, .st] s s.tick := by
  intro p hp
  cases p <;> first | rfl | (intro _; rfl) | (intro _ _; rfl) | simp at hp

theorem keepsAllBut_clearPixels (s : State) : KeepsAllBut [.fb] s s.clearPixels := by
  intro p hp
  cases p <;> first | rfl | (intro _; rfl) | simp at hp

theorem keepsAllBut_setRedraw (s : State) (b : Bool) : KeepsAllBut [.redraw] s (s.setRedraw b) := by
  intro p hp
  cases p <;> first | rfl | (intro _; rfl) | (intro _ _; rfl) | simp at hp

theorem keepsAllBut_nextDraw (s : State) : KeepsAllBut [.draws] s s.nextDraw := by
  intro p hp
  cases p <;> first | rfl | (intro _; rfl) | (intro _ _; rfl) | simp at hp

theorem keepsAllBut_note (s : State) (d : Diag) : KeepsAllBut [.outcome] s (s.note d) := by
  intro p hp
  cases p <;> first | rfl | (intro _; rfl) | (intro _ _; rfl) | simp at hp

theorem keepsAllBut_raiseFatal (s : State) (k : FatalKind) : KeepsAllBut [.outcome, .faults] s (s.raiseFatal k) := by
  intro p hp
  cases p <;> first | rfl | (intro _; rfl) | (intro _ _; rfl) | simp at hp

theorem keepsAllBut_advance (s : State) : KeepsAllBut [.pc, .outcome] s s.advance := by
  intro p hp
  cases p <;> first | rfl | (intro _; rfl) | (intro _ _; rfl) | simp at hp

end Sys2Proof.Machine
end

