-- ==== Sys2Proof/Laws/HostCalls.lean ====
section
/-! SUPPORT. What each host call that writes the state does to it (spec/60_exceptions.md R135 to R137,
spec/70_reset_and_hazards.md R143). -/

namespace Sys2Proof.Machine

/-- All that set key changes is the keypad. -/
theorem setKey_eq (s : State) (k : Nat) (p : Bool) :
    (s.setKey k p).1 = { s with keys := (s.setKey k p).1.keys } := by
  unfold State.setKey
  split <;> rfl

/-- The keys after set key: the named key, if it exists, has the flag. -/
theorem key_setKey (s : State) (k : Nat) (p : Bool) (j : Nat) :
    (s.setKey k p).1.key j = if j = k ∧ k < 16 then p else s.key j := by
  unfold State.setKey
  split
  · rename_i h
    unfold State.key
    by_cases hj : j < 16
    · simp only [hj, dite_true, Vector.getElem_set]
      by_cases hk : k = j
      · subst hk; simp [h]
      · simp [hk, Ne.symm hk]
    · rw [dif_neg hj, dif_neg hj, if_neg]; omega
  · rw [if_neg]; omega

/-- The set-key calls of the polling pass for the key indices in `l`. -/
abbrev State.setKeysIn (s : State) (flags : Vector Bool 16) (l : List Nat) : State :=
  l.foldl (fun t k => (t.setKey k (flags.getD k false)).1) s

theorem setKeysIn_eq (s : State) (flags : Vector Bool 16) (l : List Nat) :
    s.setKeysIn flags l = { s with keys := (s.setKeysIn flags l).keys } := by
  induction l generalizing s with
  | nil => rfl
  | cons a l ih =>
    have h := ih (s.setKey a (flags.getD a false)).1
    have e := setKey_eq s a (flags.getD a false)
    change (s.setKey a (flags.getD a false)).1.setKeysIn flags l
      = { s with keys := ((s.setKey a (flags.getD a false)).1.setKeysIn flags l).keys }
    generalize (s.setKey a (flags.getD a false)).1 = t at *
    refine h.trans ?_
    rw [e]

/-- All that a polling pass changes is the keypad. -/
theorem setAllKeys_eq (s : State) (flags : Vector Bool 16) :
    s.setAllKeys flags = { s with keys := (s.setAllKeys flags).keys } := setKeysIn_eq s flags _

/-- The keys after the first `n` set-key calls of a polling pass. -/
theorem key_setKeysIn_range (s : State) (flags : Vector Bool 16) (n : Nat) (hn : n ≤ 16) (j : Nat) :
    (s.setKeysIn flags (List.range n)).key j = if j < n then flags.getD j false else s.key j := by
  induction n with
  | zero => simp
  | succ n ih =>
    rw [State.setKeysIn, List.range_succ, List.foldl_append, List.foldl_cons, List.foldl_nil, key_setKey,
      ih (by omega)]
    by_cases h : j = n
    · subst h; simp; omega
    · simp only [h, false_and, if_false]; congr 1; simp; omega

/-- A ROM that fits is written from 0x200 upward, and L is its length. -/
theorem loadRom_of_le (s : State) (rom : List Byte) (h : rom.length ≤ 3584) :
    s.loadRom rom = ({ s.writeBytes 0x200 rom with romSize := rom.length }, none) := by
  unfold State.loadRom
  rw [if_neg (by simp only [Config.maxRom, Config.memSize, Config.programStart]; omega)]

/-- A ROM that does not fit is refused and changes nothing. -/
theorem loadRom_of_gt (s : State) (rom : List Byte) (h : rom.length > 3584) :
    s.loadRom rom = (s, some .romTooLarge) := by
  unfold State.loadRom
  rw [if_pos (by simp only [Config.maxRom, Config.memSize, Config.programStart]; omega)]

end Sys2Proof.Machine
end

