-- ==== Sys2Proof/Laws/PerInstr.lean ====
section
/-! SUPPORT. The per-instruction family EncodesInRow: the word of an instruction belongs to the instruction's own row of
the opcode map (spec/30_encoding.md section 4), and that row is one of the 34. -/

namespace Sys2Proof.Laws.EncodesInRow

/-- The encoder's word matches the instruction's row, and the row is in the opcode map. -/
def Statement (i : Instr) : Prop := encode i &&& i.row.mask = i.row.bits ∧ opcodeRows.contains i.row = true

theorem cls : Statement .cls := ⟨rfl, rfl⟩

theorem ret : Statement .ret := ⟨rfl, rfl⟩

theorem jp (nnn : Addr12) : Statement (.jp nnn) := ⟨packNnn_and_F000 _ _, rfl⟩

theorem call (nnn : Addr12) : Statement (.call nnn) := ⟨packNnn_and_F000 _ _, rfl⟩

theorem seImm (x : Nibble) (nn : Byte) : Statement (.seImm x nn) := ⟨packXNn_and_F000 _ _ _, rfl⟩

theorem sneImm (x : Nibble) (nn : Byte) : Statement (.sneImm x nn) := ⟨packXNn_and_F000 _ _ _, rfl⟩

theorem seReg (x : Nibble) (y : Nibble) : Statement (.seReg x y) := ⟨packXYN_and_F00F _ _ _ _, rfl⟩

theorem ldImm (x : Nibble) (nn : Byte) : Statement (.ldImm x nn) := ⟨packXNn_and_F000 _ _ _, rfl⟩

theorem addImm (x : Nibble) (nn : Byte) : Statement (.addImm x nn) := ⟨packXNn_and_F000 _ _ _, rfl⟩

theorem ldReg (x : Nibble) (y : Nibble) : Statement (.ldReg x y) := ⟨packXYN_and_F00F _ _ _ _, rfl⟩

theorem orReg (x : Nibble) (y : Nibble) : Statement (.orReg x y) := ⟨packXYN_and_F00F _ _ _ _, rfl⟩

theorem andReg (x : Nibble) (y : Nibble) : Statement (.andReg x y) := ⟨packXYN_and_F00F _ _ _ _, rfl⟩

theorem xorReg (x : Nibble) (y : Nibble) : Statement (.xorReg x y) := ⟨packXYN_and_F00F _ _ _ _, rfl⟩

theorem addReg (x : Nibble) (y : Nibble) : Statement (.addReg x y) := ⟨packXYN_and_F00F _ _ _ _, rfl⟩

theorem subReg (x : Nibble) (y : Nibble) : Statement (.subReg x y) := ⟨packXYN_and_F00F _ _ _ _, rfl⟩

theorem shr (x : Nibble) (y : Nibble) : Statement (.shr x y) := ⟨packXYN_and_F00F _ _ _ _, rfl⟩

theorem subnReg (x : Nibble) (y : Nibble) : Statement (.subnReg x y) := ⟨packXYN_and_F00F _ _ _ _, rfl⟩

theorem shl (x : Nibble) (y : Nibble) : Statement (.shl x y) := ⟨packXYN_and_F00F _ _ _ _, rfl⟩

theorem sneReg (x : Nibble) (y : Nibble) : Statement (.sneReg x y) := ⟨packXYN_and_F00F _ _ _ _, rfl⟩

theorem ldI (nnn : Addr12) : Statement (.ldI nnn) := ⟨packNnn_and_F000 _ _, rfl⟩

theorem jpV0 (nnn : Addr12) : Statement (.jpV0 nnn) := ⟨packNnn_and_F000 _ _, rfl⟩

theorem rnd (x : Nibble) (nn : Byte) : Statement (.rnd x nn) := ⟨packXNn_and_F000 _ _ _, rfl⟩

theorem drw (x : Nibble) (y : Nibble) (n : Nibble) : Statement (.drw x y n) := ⟨packXYN_and_F000 _ _ _ _, rfl⟩

theorem skp (x : Nibble) : Statement (.skp x) := ⟨packXNn_and_F0FF _ _ _, rfl⟩

theorem sknp (x : Nibble) : Statement (.sknp x) := ⟨packXNn_and_F0FF _ _ _, rfl⟩

theorem ldVxDt (x : Nibble) : Statement (.ldVxDt x) := ⟨packXNn_and_F0FF _ _ _, rfl⟩

theorem ldVxK (x : Nibble) : Statement (.ldVxK x) := ⟨packXNn_and_F0FF _ _ _, rfl⟩

theorem ldDtVx (x : Nibble) : Statement (.ldDtVx x) := ⟨packXNn_and_F0FF _ _ _, rfl⟩

theorem ldStVx (x : Nibble) : Statement (.ldStVx x) := ⟨packXNn_and_F0FF _ _ _, rfl⟩

theorem addIVx (x : Nibble) : Statement (.addIVx x) := ⟨packXNn_and_F0FF _ _ _, rfl⟩

theorem ldFVx (x : Nibble) : Statement (.ldFVx x) := ⟨packXNn_and_F0FF _ _ _, rfl⟩

theorem ldBVx (x : Nibble) : Statement (.ldBVx x) := ⟨packXNn_and_F0FF _ _ _, rfl⟩

theorem stRegs (x : Nibble) : Statement (.stRegs x) := ⟨packXNn_and_F0FF _ _ _, rfl⟩

theorem ldRegs (x : Nibble) : Statement (.ldRegs x) := ⟨packXNn_and_F0FF _ _ _, rfl⟩

end Sys2Proof.Laws.EncodesInRow
end

