-- ==== Sys2Proof/Laws/Step.lean ====
section
/-! SUPPORT. Everything a step can do, said once (spec/40_cycle.md R73), and the checks of the fetch. -/

namespace Sys2Proof.Machine

/-- The fetch checks pass exactly when the word lies in memory and, with the ROM-end check on, starts below the end of
the ROM (R62, R63). -/
theorem fetchCheck_eq_none {s : State} :
    s.fetchCheck = none ↔ s.pc.toNat + 1 ≤ 4095 ∧ (s.config.romEndCheck = true → s.pc.toNat < 0x200 + s.romSize) := by
  unfold State.fetchCheck
  simp only [Config.programStart]
  split_ifs with h1 h2
  · simp; omega
  · simp; intro _; exact ⟨h2.1, h2.2⟩
  · simp only [true_iff]
    exact ⟨by omega, fun h => by by_contra h3; exact h2 ⟨h, by omega⟩⟩

theorem fetchCheck_of_past_memory {s : State} (h : s.pc.toNat + 1 > 4095) : s.fetchCheck = some .fetchOutOfRange := by
  simp [State.fetchCheck, h]

theorem fetchCheck_of_past_rom {s : State} (h : s.pc.toNat + 1 ≤ 4095) (hc : s.config.romEndCheck = true)
    (hr : s.pc.toNat ≥ 0x200 + s.romSize) : s.fetchCheck = some .fetchPastRom := by
  unfold State.fetchCheck
  rw [if_neg (by omega), if_pos ⟨hc, by simpa using hr⟩]

/-- The fetch checks find nothing but the two fetch conditions. -/
theorem fetchCheck_kinds {s : State} {k : FatalKind} (h : s.fetchCheck = some k) :
    (k = .fetchOutOfRange ∧ s.pc.toNat + 1 > 4095) ∨
      (k = .fetchPastRom ∧ s.pc.toNat + 1 ≤ 4095 ∧ s.config.romEndCheck = true ∧ s.pc.toNat ≥ 0x200 + s.romSize) := by
  unfold State.fetchCheck at h
  simp only [Config.programStart] at h
  split_ifs at h with h1 h2
  · left; exact ⟨by simpa using h.symm, h1⟩
  · right; exact ⟨by simpa using h.symm, by omega, h2.1, h2.2⟩

/-- What the end of the cycle does to a completed execute step (R67, R69). -/
theorem finishCycle_next (t : State) :
    finishCycle (.next t) = .next (if t.outcome.isFatal then t else t.tick) := rfl

/-- Everything a step with a next state can have done: a fatal fetch condition; or an instruction, or an unknown opcode,
executed in the advanced state, and then the tick unless it ended fatally. -/
theorem step_cases {s t : State} (h : step s = .next t) :
    (∃ k, s.fetchCheck = some k ∧ t = s.raiseFatal k) ∨
    (s.fetchCheck = none ∧ ∃ e, (∃ i, decode s.fetchWord = .ok i ∧ exec i s.advance = .next e) ∧
      t = if e.outcome.isFatal then e else e.tick) ∨
    (s.fetchCheck = none ∧ (∃ r, decode s.fetchWord = .error r) ∧ t = (s.advance.note .unknownOpcode).tick) := by
  unfold step at h
  split at h
  · rename_i k hk
    left; exact ⟨k, hk, by simpa using h.symm⟩
  · rename_i hn
    right
    split at h
    · rename_i i hi
      left
      refine ⟨hn, ?_⟩
      cases he : exec i s.advance with
      | next e => rw [he] at h; exact ⟨e, ⟨i, hi, he⟩, by simpa [finishCycle_next] using h.symm⟩
      | fault f => rw [he] at h; simp [finishCycle] at h
      | refused r => rw [he] at h; simp [finishCycle] at h
    · rename_i r hr
      right
      exact ⟨hn, ⟨r, hr⟩, by simpa [finishCycle, execUnknown, CycleOutcome.isFatal, State.note, State.advance] using h.symm⟩

/-- When the checks pass and the word decodes, the step is the execute step and the end of the cycle. -/
theorem step_of_decode {s : State} {i : Instr} (hf : s.fetchCheck = none) (hd : decode s.fetchWord = .ok i) :
    step s = finishCycle (exec i s.advance) := by
  simp [step, hf, hd]

end Sys2Proof.Machine
end

