-- ==== Sys2Proof/Laws/Run.lean ====
section
/-! SUPPORT. A run ends at its first end (spec/70_reset_and_hazards.md R152): what each end of a run says about the
calls before it, and that no later call changes it. -/

namespace Sys2Proof.Machine

/-! ### One boundary -/

/-- A cycle boundary is a good end exactly when the cycle has a next state that meets case 1. -/
theorem cycleBoundary_eq_good {o : Host.Outcome State Fault Refusal} {t : State} :
    cycleBoundary o = .good t ↔ o = .next t ∧ t.goodEnd := by
  cases o with
  | next u =>
    simp only [cycleBoundary, State.goodEnd, Host.Outcome.next.injEq]
    constructor
    · intro h
      split at h
      · cases h
      · rename_i ds ho
        split at h
        · rename_i hj
          cases h
          exact ⟨rfl, by rw [ho]; rfl, hj⟩
        · cases h
    · rintro ⟨rfl, hf, hj⟩
      split
      · rename_i k ho
        rw [ho] at hf
        cases hf
      · rw [if_pos hj]
  | fault f => simp [cycleBoundary]
  | refused r => simp [cycleBoundary]

/-- A cycle boundary is a fatal end exactly when the cycle ended `Fatal`. -/
theorem cycleBoundary_eq_fatal {o : Host.Outcome State Fault Refusal} {k : FatalKind} {t : State} :
    cycleBoundary o = .fatal k t ↔ o = .next t ∧ t.outcome = .fatal k := by
  cases o with
  | next u =>
    simp only [cycleBoundary, Host.Outcome.next.injEq]
    constructor
    · intro h
      split at h
      · rename_i k' ho
        cases h
        exact ⟨rfl, ho⟩
      · split at h <;> cases h
    · rintro ⟨rfl, ho⟩
      simp [ho]
  | fault f => simp [cycleBoundary]
  | refused r => simp [cycleBoundary]

/-- A cycle boundary has no end state exactly when the cycle ended `Undefined`. -/
theorem cycleBoundary_eq_undefined {o : Host.Outcome State Fault Refusal} {f : Fault} :
    cycleBoundary o = .undefined f ↔ o = .fault f := by
  cases o with
  | next u =>
    simp only [cycleBoundary]
    split
    · simp
    · split <;> simp
  | fault f' => simp [cycleBoundary]
  | refused r => simp [cycleBoundary]

/-! ### Runs -/

/-- A call either leaves the run going or is the cycle at whose boundary it ends. -/
theorem runCall_cases (c : HostCall) (s : State) : (∃ t, runCall c s = .running t) ∨ c = .runCycle := by
  cases c <;> simp [runCall]

/-- While a run goes on, its next calls continue it. -/
theorem runCalls_append {cs : List HostCall} {s t : State} (h : runCalls cs s = .running t) (ds : List HostCall) :
    runCalls (cs ++ ds) s = runCalls ds t := by
  induction cs generalizing s with
  | nil => cases h; rfl
  | cons c cs ih =>
    simp only [List.cons_append, runCalls] at h ⊢
    split at h
    · exact ih h
    all_goals cases h

/-- The calls after the end of a run change nothing. -/
theorem runCalls_append_of_ended {cs : List HostCall} {s : State} (h : ∀ t, runCalls cs s ≠ .running t) (ds : List HostCall) :
    runCalls (cs ++ ds) s = runCalls cs s := by
  induction cs generalizing s with
  | nil => exact absurd rfl (h s)
  | cons c cs ih =>
    simp only [List.cons_append, runCalls] at h ⊢
    split
    · rename_i t ht
      rw [ht] at h
      exact ih h
    all_goals rfl

/-- A run that has ended ended at the boundary of one of its cycles, and went on at every call before. -/
theorem runCalls_ended {cs : List HostCall} {s : State} (h : ∀ t, runCalls cs s ≠ .running t) :
    ∃ pre post u, cs = pre ++ .runCycle :: post ∧ runCalls pre s = .running u ∧ runCalls cs s = cycleBoundary (step u) := by
  induction cs generalizing s with
  | nil => exact absurd rfl (h s)
  | cons c cs ih =>
    rcases runCall_cases c s with ⟨t, ht⟩ | rfl
    · have hr : runCalls (c :: cs) s = runCalls cs t := by simp only [runCalls, ht]
      rw [hr] at h ⊢
      obtain ⟨pre, post, u, rfl, hp, he⟩ := ih h
      exact ⟨c :: pre, post, u, rfl, by simp only [runCalls, ht, hp], he⟩
    · cases hc : cycleBoundary (step s) with
      | running t =>
        have hr : runCalls (.runCycle :: cs) s = runCalls cs t := by simp only [runCalls, runCall, hc]
        rw [hr] at h ⊢
        obtain ⟨pre, post, u, rfl, hp, he⟩ := ih h
        exact ⟨.runCycle :: pre, post, u, rfl, by simp only [runCalls, runCall, hc, hp], he⟩
      | good t => exact ⟨[], cs, s, rfl, rfl, by simp only [runCalls, runCall, hc]⟩
      | fatal k t => exact ⟨[], cs, s, rfl, rfl, by simp only [runCalls, runCall, hc]⟩
      | undefined f => exact ⟨[], cs, s, rfl, rfl, by simp only [runCalls, runCall, hc]⟩
      | refused r => exact ⟨[], cs, s, rfl, rfl, by simp only [runCalls, runCall, hc]⟩

/-- A call that leaves the run going is the host call of `hostCall`, so a run visits reachable states only. -/
theorem hostCall_of_runCall {c : HostCall} {s t : State} (h : runCall c s = .running t) : hostCall c s = .next t := by
  cases c <;> simp only [runCall, hostCall] at h ⊢
  case runCycle =>
    unfold cycleBoundary at h
    split at h
    · rename_i u hu
      split at h
      · cases h
      · split at h <;> cases h
        exact hu
    all_goals cases h
  all_goals (cases h; rfl)

end Sys2Proof.Machine
end

