-- ==== Sys2Proof/Tests/Slice0.lean ====
section
/-! SUPPORT. Tests. The expected results are the vectors S1 to S12 and V1 to V118 of spec/95_test_vectors.md, or worked
by hand from the rule a test names; each test runs one cycle, or one host call, on a small state. The second half holds
the witnesses: for every statement with hypotheses, a concrete state and operands that meet all of them, for each of its
clauses at a boundary value. -/

namespace Sys2Proof.Tests

open Sys2Proof.Machine

/- One test at a time: run at once, the tests need a thread each, more than the memory limit of check.sh holds. -/
set_option Elab.async false

/-! ### Helpers -/

/-- One cycle of `s` with the word `w` at address `a` and pc there. -/
def runAt (a w : Nat) (s : State) : Host.Outcome State Fault Refusal :=
  step (({ s with pc := BitVec.ofNat 16 a } : State).withFetchWord 16 w)

/-- The outcome is a next state that passes the check. -/
def nextSat (o : Host.Outcome State Fault Refusal) (p : State → Bool) : Bool :=
  match o with
  | .next t => p t
  | _ => false

/-- The outcome is the fault. -/
def isFault (o : Host.Outcome State Fault Refusal) (f : Fault) : Bool :=
  match o with
  | .fault f' => f' == f
  | _ => false

/-- One cycle on the word `w` at 0x300, and a check of the next state. -/
def run (w : Nat) (s : State) (p : State → Bool) : Bool := nextSat (runAt 0x300 w s) p

/-- The next state of an outcome that has one. -/
def after (o : Host.Outcome State Fault Refusal) (d : State) : State :=
  match o with
  | .next t => t
  | _ => d

/-- The start state of the vectors, the construction state with the default parameters. -/
abbrev s0 : State := State.reset

/-- The construction state under `LATCHED_FLAG_LAST`. -/
abbrev sl : State := State.construct { Config.specDefault with aluSelfRef := .latchedFlagLast }

/-- The construction state with the ROM-end check on. -/
abbrev sr : State := State.construct { Config.specDefault with romEndCheck := true }

/-- The construction state with I and two registers set. -/
def at2 (i : Nat) (x : Nibble) (a : Byte) (y : Nibble) (b : Byte) : State :=
  ((s0.setV x a).setV y b).setI (BitVec.ofNat 16 i)

/-! ### Well-formedness of words: an ill-formed word for each family check -/

/-- R54, V6. -/
theorem test_illFormed_family0_word :
    wordWellFormed 0x00E1#16 = false ∧ decode 0x00E1#16 = .error (.unknownOpcode 0x00E1#16) := by
  decide +kernel

/-- R54, V6. -/
theorem test_illFormed_family0_routine :
    wordWellFormed 0x01E0#16 = false ∧ decode 0x01E0#16 = .error (.unknownOpcode 0x01E0#16) := by
  decide +kernel

/-- R55, V6. -/
theorem test_illFormed_family5_low_nibble :
    wordWellFormed 0x5121#16 = false ∧ decode 0x5121#16 = .error (.unknownOpcode 0x5121#16) := by
  decide +kernel

/-- R56, V6. -/
theorem test_illFormed_family8_n8 :
    wordWellFormed 0x8008#16 = false ∧ decode 0x8008#16 = .error (.unknownOpcode 0x8008#16) := by
  decide +kernel

/-- R56, V6. -/
theorem test_illFormed_family8_nF :
    wordWellFormed 0x800F#16 = false ∧ decode 0x800F#16 = .error (.unknownOpcode 0x800F#16) := by
  decide +kernel

/-- R55, V6. -/
theorem test_illFormed_family9_low_nibble :
    wordWellFormed 0x9121#16 = false ∧ decode 0x9121#16 = .error (.unknownOpcode 0x9121#16) := by
  decide +kernel

/-- R57, V6. -/
theorem test_illFormed_familyE_nn :
    wordWellFormed 0xE19F#16 = false ∧ decode 0xE19F#16 = .error (.unknownOpcode 0xE19F#16) := by
  decide +kernel

/-- R58, V6. -/
theorem test_illFormed_familyF_nn :
    wordWellFormed 0xF0FF#16 = false ∧ decode 0xF0FF#16 = .error (.unknownOpcode 0xF0FF#16) := by
  decide +kernel

/-- R59: the zero word is an unknown opcode. -/
theorem test_wellFormed_zero_word :
    wordWellFormed 0x0000#16 = false ∧ wordWellFormed 0x00E0#16 = true := by
  decide +kernel

/-- R50: one byte is no instruction. -/
theorem test_truncated : decodeBytes [0x12#8] = .error .truncated := by decide +kernel

/-- R1, R53: 34 rows, and no word matches two of them. -/
theorem test_rows_disjoint :
    opcodeRows.length = 34 ∧ opcodeRows.Pairwise (fun r r' => r.disjoint r' = true) := by
  decide +kernel

/-! ### Decoding: a word of each row written from its pattern in the opcode map, and encoding back -/

theorem test_decode_cls :
    decode 0b0000000011100000#16 = .ok (.cls) ∧ encode (.cls) = 0b0000000011100000#16 := by
  decide +kernel

theorem test_decode_ret :
    decode 0b0000000011101110#16 = .ok (.ret) ∧ encode (.ret) = 0b0000000011101110#16 := by
  decide +kernel

theorem test_decode_jp :
    decode 0b0001101001011100#16 = .ok (.jp 0xA5C#12) ∧ encode (.jp 0xA5C#12) = 0b0001101001011100#16 := by
  decide +kernel

theorem test_decode_call :
    decode 0b0010001111110001#16 = .ok (.call 0x3F1#12) ∧ encode (.call 0x3F1#12) = 0b0010001111110001#16 := by
  decide +kernel

theorem test_decode_seImm :
    decode 0b0011001010010101#16 = .ok (.seImm 0x2#4 0x95#8) ∧ encode (.seImm 0x2#4 0x95#8) =
      0b0011001010010101#16 := by
  decide +kernel

theorem test_decode_sneImm :
    decode 0b0100101100011110#16 = .ok (.sneImm 0xB#4 0x1E#8) ∧ encode (.sneImm 0xB#4 0x1E#8) =
      0b0100101100011110#16 := by
  decide +kernel

theorem test_decode_seReg :
    decode 0b0101011110100000#16 = .ok (.seReg 0x7#4 0xA#4) ∧ encode (.seReg 0x7#4 0xA#4) = 0b0101011110100000#16
      := by
  decide +kernel

theorem test_decode_ldImm :
    decode 0b0110110101100011#16 = .ok (.ldImm 0xD#4 0x63#8) ∧ encode (.ldImm 0xD#4 0x63#8) =
      0b0110110101100011#16 := by
  decide +kernel

theorem test_decode_addImm :
    decode 0b0111000111111000#16 = .ok (.addImm 0x1#4 0xF8#8) ∧ encode (.addImm 0x1#4 0xF8#8) =
      0b0111000111111000#16 := by
  decide +kernel

theorem test_decode_ldReg :
    decode 0b1000010010010000#16 = .ok (.ldReg 0x4#4 0x9#4) ∧ encode (.ldReg 0x4#4 0x9#4) = 0b1000010010010000#16
      := by
  decide +kernel

theorem test_decode_orReg :
    decode 0b1000010010010001#16 = .ok (.orReg 0x4#4 0x9#4) ∧ encode (.orReg 0x4#4 0x9#4) = 0b1000010010010001#16
      := by
  decide +kernel

theorem test_decode_andReg :
    decode 0b1000010010010010#16 = .ok (.andReg 0x4#4 0x9#4) ∧ encode (.andReg 0x4#4 0x9#4) =
      0b1000010010010010#16 := by
  decide +kernel

theorem test_decode_xorReg :
    decode 0b1000010010010011#16 = .ok (.xorReg 0x4#4 0x9#4) ∧ encode (.xorReg 0x4#4 0x9#4) =
      0b1000010010010011#16 := by
  decide +kernel

theorem test_decode_addReg :
    decode 0b1000010010010100#16 = .ok (.addReg 0x4#4 0x9#4) ∧ encode (.addReg 0x4#4 0x9#4) =
      0b1000010010010100#16 := by
  decide +kernel

theorem test_decode_subReg :
    decode 0b1000010010010101#16 = .ok (.subReg 0x4#4 0x9#4) ∧ encode (.subReg 0x4#4 0x9#4) =
      0b1000010010010101#16 := by
  decide +kernel

theorem test_decode_shr :
    decode 0b1000010010010110#16 = .ok (.shr 0x4#4 0x9#4) ∧ encode (.shr 0x4#4 0x9#4) = 0b1000010010010110#16 :=
      by
  decide +kernel

theorem test_decode_subnReg :
    decode 0b1000010010010111#16 = .ok (.subnReg 0x4#4 0x9#4) ∧ encode (.subnReg 0x4#4 0x9#4) =
      0b1000010010010111#16 := by
  decide +kernel

theorem test_decode_shl :
    decode 0b1000010010011110#16 = .ok (.shl 0x4#4 0x9#4) ∧ encode (.shl 0x4#4 0x9#4) = 0b1000010010011110#16 :=
      by
  decide +kernel

theorem test_decode_sneReg :
    decode 0b1001011110100000#16 = .ok (.sneReg 0x7#4 0xA#4) ∧ encode (.sneReg 0x7#4 0xA#4) =
      0b1001011110100000#16 := by
  decide +kernel

theorem test_decode_ldI :
    decode 0b1010100011100111#16 = .ok (.ldI 0x8E7#12) ∧ encode (.ldI 0x8E7#12) = 0b1010100011100111#16 := by
  decide +kernel

theorem test_decode_jpV0 :
    decode 0b1011100011100111#16 = .ok (.jpV0 0x8E7#12) ∧ encode (.jpV0 0x8E7#12) = 0b1011100011100111#16 := by
  decide +kernel

theorem test_decode_rnd :
    decode 0b1100110001011010#16 = .ok (.rnd 0xC#4 0x5A#8) ∧ encode (.rnd 0xC#4 0x5A#8) = 0b1100110001011010#16 :=
      by
  decide +kernel

theorem test_decode_drw :
    decode 0b1101001111000110#16 = .ok (.drw 0x3#4 0xC#4 0x6#4) ∧ encode (.drw 0x3#4 0xC#4 0x6#4) =
      0b1101001111000110#16 := by
  decide +kernel

theorem test_decode_skp :
    decode 0b1110010110011110#16 = .ok (.skp 0x5#4) ∧ encode (.skp 0x5#4) = 0b1110010110011110#16 := by
  decide +kernel

theorem test_decode_sknp :
    decode 0b1110010110100001#16 = .ok (.sknp 0x5#4) ∧ encode (.sknp 0x5#4) = 0b1110010110100001#16 := by
  decide +kernel

theorem test_decode_ldVxDt :
    decode 0b1111100100000111#16 = .ok (.ldVxDt 0x9#4) ∧ encode (.ldVxDt 0x9#4) = 0b1111100100000111#16 := by
  decide +kernel

theorem test_decode_ldVxK :
    decode 0b1111100100001010#16 = .ok (.ldVxK 0x9#4) ∧ encode (.ldVxK 0x9#4) = 0b1111100100001010#16 := by
  decide +kernel

theorem test_decode_ldDtVx :
    decode 0b1111100100010101#16 = .ok (.ldDtVx 0x9#4) ∧ encode (.ldDtVx 0x9#4) = 0b1111100100010101#16 := by
  decide +kernel

theorem test_decode_ldStVx :
    decode 0b1111100100011000#16 = .ok (.ldStVx 0x9#4) ∧ encode (.ldStVx 0x9#4) = 0b1111100100011000#16 := by
  decide +kernel

theorem test_decode_addIVx :
    decode 0b1111100100011110#16 = .ok (.addIVx 0x9#4) ∧ encode (.addIVx 0x9#4) = 0b1111100100011110#16 := by
  decide +kernel

theorem test_decode_ldFVx :
    decode 0b1111100100101001#16 = .ok (.ldFVx 0x9#4) ∧ encode (.ldFVx 0x9#4) = 0b1111100100101001#16 := by
  decide +kernel

theorem test_decode_ldBVx :
    decode 0b1111100100110011#16 = .ok (.ldBVx 0x9#4) ∧ encode (.ldBVx 0x9#4) = 0b1111100100110011#16 := by
  decide +kernel

theorem test_decode_stRegs :
    decode 0b1111100101010101#16 = .ok (.stRegs 0x9#4) ∧ encode (.stRegs 0x9#4) = 0b1111100101010101#16 := by
  decide +kernel

theorem test_decode_ldRegs :
    decode 0b1111100101100101#16 = .ok (.ldRegs 0x9#4) ∧ encode (.ldRegs 0x9#4) = 0b1111100101100101#16 := by
  decide +kernel

/-- The table's words as the host numbers them. -/
theorem test_decodeTableWord :
    decodeTableWord 16 0xD123 = some (.drw 0x1#4 0x2#4 0x3#4) ∧ decodeTableWord 16 0x8008 = none := by
  decide +kernel

/-! ### Reset and memory (R32, R35, R36) -/

theorem test_reset_inv : State.reset.Inv := by decide +kernel

/-- R26, R32: the first and the last byte of the font copy, and its neighbours. -/
theorem test_reset_font :
    s0.readByte 0x04F = 0#8 ∧ s0.readByte 0x050 = 0xF0#8 ∧ s0.readByte 0x09F = 0x80#8 ∧ s0.readByte 0x0A0 = 0#8 :=
      by
  decide +kernel

/-- R32. -/
theorem test_reset_pc : s0.pc = 0x200#16 ∧ s0.sp.val = 0 ∧ s0.redraw = false ∧ s0.romSize = 0 := by decide +kernel

/-- Writing back the reset contents removes the cell; cells stay sorted. -/
theorem test_write_canonical :
    ((s0.writeByte 0x300 7#8).writeByte 0x300 0#8).mem = [] ∧ ((s0.writeByte 0x300 7#8).writeByte 0x2FF 9#8).mem =
      [(0x2FF, 9#8), (0x300, 7#8)] := by
  decide +kernel

/-- The top of memory (V78). -/
theorem test_write_last :
    (s0.writeByte 0xFFF 0x77#8).readByte 0xFFF = 0x77#8 ∧ (s0.writeByte 0xFFF 0x77#8).readByte 0xFFE = 0#8 := by
  decide +kernel

/-! ### The cycle, fetch and unknown opcodes (V1 to V10) -/

/-- V1, V3. -/
theorem test_fetch_past_memory :
    nextSat (step { s0 with pc := 0xFFF#16, dt := 5#8 }) (fun t => t.pc == 0xFFF#16 && t.dt == 5#8 && t.outcome ==
      .fatal .fetchOutOfRange) = true := by
  decide +kernel

/-- V2. -/
theorem test_fetch_last_word :
    nextSat (runAt 0xFFE 0x602A s0) (fun t => t.v 0#4 == 0x2A#8 && t.pc == 0x1000#16) = true := by
  decide +kernel

/-- R35, R64. -/
theorem test_fetch_big_endian :
    ({ (s0.writeByte 0x200 0x12#8).writeByte 0x201 0x34#8 with romSize := 2 } : State).fetchWord = 0x1234#16 := by
  decide +kernel

/-- V4. -/
theorem test_unknown_ticks :
    nextSat (step { s0 with pc := 0x300#16, dt := 3#8, st := 1#8 }) (fun t => t.pc == 0x302#16 && t.dt == 2#8 &&
      t.st == 0#8 && t.outcome == .ok [.unknownOpcode]) = true := by
  decide +kernel

/-- V5. -/
theorem test_unknown_no_skip :
    run 0x5121 s0 (fun t => t.pc == 0x302#16 && t.outcome == .ok [.unknownOpcode]) = true := by
  decide +kernel

/-- V7. -/
theorem test_tick_stops_at_zero :
    run 0x6000 s0 (fun t => t.dt == 0#8 && t.st == 0#8 && t.outcome == .ok []) = true := by
  decide +kernel

/-- V8. -/
theorem test_fetch_past_rom :
    nextSat (step { sr with pc := 0x204#16, romSize := 4 }) (fun t => t.pc == 0x204#16 && t.outcome == .fatal
      .fetchPastRom) = true := by
  decide +kernel

/-- V9. -/
theorem test_fetch_past_rom_unchecked :
    nextSat (step { s0 with pc := 0x204#16, romSize := 4 }) (fun t => t.pc == 0x206#16 && t.outcome == .ok
      [.unknownOpcode]) = true := by
  decide +kernel

/-- V10. -/
theorem test_fetch_no_rom_checked :
    nextSat (step sr) (fun t => t.pc == 0x200#16 && t.outcome == .fatal .fetchPastRom && t.faults ==
      [.fetchPastRom]) = true := by
  decide +kernel

/-- The first instruction after reset. -/
theorem test_withFetchWord :
    nextSat (step (s0.withFetchWord 16 0x6A2F)) (fun t => t.v 0xA#4 == 0x2F#8 && t.pc == 0x202#16) = true := by
  decide +kernel

/-! ### Control transfer (V11 to V29) -/

/-- V11. -/
theorem test_jp : run 0x1234 s0 (fun t => t.pc == 0x234#16) = true := by decide +kernel

/-- V12. -/
theorem test_jp_self :
    nextSat (runAt 0x240 0x1240 { s0 with dt := 5#8 }) (fun t => t.pc == 0x240#16 && t.dt == 4#8) = true := by
  decide +kernel

/-- V13. -/
theorem test_call :
    nextSat (runAt 0x204 0x2210 s0) (fun t => t.entry 0 == 0x206#16 && t.sp.val == 1 && t.pc == 0x210#16) = true
      := by
  decide +kernel

/-- V16. -/
theorem test_call_full :
    run 0x2400 { s0 with sp := 16, dt := 5#8 } (fun t => t.pc == 0x302#16 && t.sp.val == 16 && t.dt == 5#8 &&
      t.outcome == .fatal .stackOverflow) = true := by
  decide +kernel

/-- V14. -/
theorem test_ret :
    nextSat (runAt 0x212 0x00EE { s0 with sp := 1, stack := s0.stack.set 0 0x206#16 }) (fun t => t.sp.val == 0 &&
      t.pc == 0x206#16 && t.entry 0 == 0x206#16) = true := by
  decide +kernel

/-- V15. -/
theorem test_ret_empty :
    run 0x00EE { s0 with dt := 5#8 } (fun t => t.pc == 0x302#16 && t.sp.val == 0 && t.dt == 5#8 && t.outcome ==
      .fatal .stackUnderflow) = true := by
  decide +kernel

/-- V18, V19. -/
theorem test_seImm :
    run 0x3211 (s0.setV 2#4 0x11#8) (fun t => t.pc == 0x304#16) && run 0x3211 (s0.setV 2#4 0x12#8) (fun t => t.pc
      == 0x302#16) = true := by
  decide +kernel

/-- V20, V21. -/
theorem test_sneImm :
    run 0x4211 (s0.setV 2#4 0x11#8) (fun t => t.pc == 0x302#16) && run 0x4211 (s0.setV 2#4 0x12#8) (fun t => t.pc
      == 0x304#16) = true := by
  decide +kernel

/-- V22, V23. -/
theorem test_seReg :
    run 0x5120 (at2 0 1#4 0x40#8 2#4 0x40#8) (fun t => t.pc == 0x304#16) && run 0x5330 s0 (fun t => t.pc ==
      0x304#16) = true := by
  decide +kernel

/-- V24, V25. -/
theorem test_sneReg :
    run 0x9120 (at2 0 1#4 0x40#8 2#4 0x41#8) (fun t => t.pc == 0x304#16) && run 0x9330 s0 (fun t => t.pc ==
      0x302#16) = true := by
  decide +kernel

/-- V26. -/
theorem test_skip_at_end : nextSat (runAt 0xFFE 0x3000 s0) (fun t => t.pc == 0x1002#16) = true := by decide +kernel

/-- V29: V0 and not Vx. -/
theorem test_jpV0 : run 0xB500 (at2 0 0#4 0x01#8 5#4 0x80#8) (fun t => t.pc == 0x501#16) = true := by decide +kernel

/-- V28. -/
theorem test_jpV0_not_reduced :
    run 0xBFFF (s0.setV 0#4 0xFF#8) (fun t => t.pc == 0x10FE#16) = true := by
  decide +kernel

/-! ### Loads, arithmetic and logic (S2, S3, V30 to V63) -/

/-- V30. -/
theorem test_ldImm : run 0x6A2F s0 (fun t => t.v 0xA#4 == 0x2F#8) = true := by decide +kernel

/-- V31. -/
theorem test_addImm :
    run 0x7303 (at2 0 3#4 0xFE#8 15#4 0x55#8) (fun t => t.v 3#4 == 0x01#8 && t.v 15#4 == 0x55#8) = true := by
  decide +kernel

/-- V32. -/
theorem test_addImm_vf : run 0x7FF5 (s0.setV 15#4 0x10#8) (fun t => t.v 15#4 == 0x05#8) = true := by decide +kernel

/-- V33. -/
theorem test_ldReg :
    run 0x8010 (at2 0 1#4 0x07#8 15#4 0x55#8) (fun t => t.v 0#4 == 0x07#8 && t.v 15#4 == 0x55#8) = true := by
  decide +kernel

/-- V34. -/
theorem test_orReg :
    run 0x8011 ((at2 0 0#4 0x0F#8 1#4 0xF0#8).setV 15#4 0x55#8) (fun t => t.v 0#4 == 0xFF#8 && t.v 15#4 == 0x55#8)
      = true := by
  decide +kernel

/-- V35. -/
theorem test_andReg :
    run 0x8012 (at2 0 0#4 0x3C#8 1#4 0x0F#8) (fun t => t.v 0#4 == 0x0C#8) = true := by
  decide +kernel

/-- V36, V37. -/
theorem test_xorReg :
    run 0x8013 (at2 0 0#4 0x3C#8 1#4 0x0F#8) (fun t => t.v 0#4 == 0x33#8) && run 0x8443 (s0.setV 4#4 0x9A#8) (fun
      t => t.v 4#4 == 0#8) = true := by
  decide +kernel

/-- V39. -/
theorem test_addReg :
    run 0x8014 ((s0.setV 0#4 0x80#8).setV 1#4 0x80#8) (fun t => t.v 0#4 == 0#8 && t.v 15#4 == 1#8) && run 0x8014
      ((sl.setV 0#4 0x80#8).setV 1#4 0x80#8) (fun t => t.v 0#4 == 0#8 && t.v 15#4 == 1#8) = true := by
  decide +kernel

/-- V41: the two orders of R86. -/
theorem test_addReg_vf :
    run 0x8F14 ((s0.setV 15#4 0xF0#8).setV 1#4 0x20#8) (fun t => t.v 15#4 == 0x21#8) && run 0x8F14 ((sl.setV 15#4
      0xF0#8).setV 1#4 0x20#8) (fun t => t.v 15#4 == 0x01#8) = true := by
  decide +kernel

/-- V42. -/
theorem test_addReg_from_vf :
    run 0x81F4 ((s0.setV 1#4 0x10#8).setV 15#4 0xFF#8) (fun t => t.v 1#4 == 0x11#8 && t.v 15#4 == 1#8) && run
      0x81F4 ((sl.setV 1#4 0x10#8).setV 15#4 0xFF#8) (fun t => t.v 1#4 == 0x0F#8 && t.v 15#4 == 1#8) = true := by
  decide +kernel

/-- S3. -/
theorem test_subReg :
    run 0x8015 ((s0.setV 0#4 3#8).setV 1#4 5#8) (fun t => t.v 0#4 == 0xFE#8 && t.v 15#4 == 0#8) && run 0x8015
      ((sl.setV 0#4 3#8).setV 1#4 5#8) (fun t => t.v 0#4 == 0xFE#8 && t.v 15#4 == 0#8) = true := by
  decide +kernel

/-- V44: strict. -/
theorem test_subReg_equal :
    run 0x8015 ((s0.setV 0#4 5#8).setV 1#4 5#8) (fun t => t.v 0#4 == 0#8 && t.v 15#4 == 0#8) && run 0x8015
      ((sl.setV 0#4 5#8).setV 1#4 5#8) (fun t => t.v 0#4 == 0#8 && t.v 15#4 == 0#8) = true := by
  decide +kernel

/-- V45. -/
theorem test_subReg_vf :
    run 0x8F15 ((s0.setV 15#4 5#8).setV 1#4 3#8) (fun t => t.v 15#4 == 0xFE#8) && run 0x8F15 ((sl.setV 15#4
      5#8).setV 1#4 3#8) (fun t => t.v 15#4 == 1#8) = true := by
  decide +kernel

/-- V48: V3 is not read. -/
theorem test_shr :
    run 0x8236 ((s0.setV 2#4 5#8).setV 3#4 0xAA#8) (fun t => t.v 2#4 == 2#8 && t.v 15#4 == 1#8) && run 0x8236
      ((sl.setV 2#4 5#8).setV 3#4 0xAA#8) (fun t => t.v 2#4 == 2#8 && t.v 15#4 == 1#8) = true := by
  decide +kernel

/-- V51. -/
theorem test_shr_vf :
    run 0x8F06 (s0.setV 15#4 3#8) (fun t => t.v 15#4 == 0#8) && run 0x8F06 (sl.setV 15#4 3#8) (fun t => t.v 15#4
      == 1#8) = true := by
  decide +kernel

/-- V53. -/
theorem test_subnReg :
    run 0x8017 ((s0.setV 0#4 5#8).setV 1#4 3#8) (fun t => t.v 0#4 == 0xFE#8 && t.v 15#4 == 0#8) && run 0x8017
      ((sl.setV 0#4 5#8).setV 1#4 3#8) (fun t => t.v 0#4 == 0xFE#8 && t.v 15#4 == 0#8) = true := by
  decide +kernel

/-- V56. -/
theorem test_subnReg_from_vf :
    run 0x81F7 ((s0.setV 1#4 3#8).setV 15#4 5#8) (fun t => t.v 1#4 == 0xFE#8 && t.v 15#4 == 1#8) && run 0x81F7
      ((sl.setV 1#4 3#8).setV 15#4 5#8) (fun t => t.v 1#4 == 2#8 && t.v 15#4 == 1#8) = true := by
  decide +kernel

/-- V57. -/
theorem test_shl :
    run 0x820E (s0.setV 2#4 0x81#8) (fun t => t.v 2#4 == 2#8 && t.v 15#4 == 1#8) && run 0x820E (sl.setV 2#4
      0x81#8) (fun t => t.v 2#4 == 2#8 && t.v 15#4 == 1#8) = true := by
  decide +kernel

/-- V59. -/
theorem test_shl_vf :
    run 0x8F0E (s0.setV 15#4 0x81#8) (fun t => t.v 15#4 == 2#8) && run 0x8F0E (sl.setV 15#4 0x81#8) (fun t => t.v
      15#4 == 1#8) = true := by
  decide +kernel

/-- V62: any draw under the mask 0 is 0, whatever the free value is. -/
theorem test_rnd_zero_mask : ∃ t, exec (.rnd 0#4 0x00#8) s0 = .next t ∧ t.v 0#4 = 0#8 ∧ t.draws = 1 :=
  ⟨_, rfl, show s0.draw &&& 0#8 = 0#8 by simp, rfl⟩

/-- V63: under the mask 0xFF the register takes the draw itself. -/
theorem test_rnd_full_mask : ∃ t, exec (.rnd 0#4 0xFF#8) s0 = .next t ∧ t.v 0#4 = Config.rndDraw 0 :=
  ⟨_, rfl, show s0.draw &&& BitVec.allOnes 8 = Config.rndDraw 0 by rw [BitVec.and_allOnes]; rfl⟩

/-! ### Index register and memory transfer (V64 to V81) -/

/-- V64. -/
theorem test_ldI : run 0xAFFF s0 (fun t => t.i == 0xFFF#16) = true := by decide +kernel

/-- V65. -/
theorem test_addIVx :
    run 0xF01E (at2 0xFFE 0#4 1#8 15#4 0x55#8) (fun t => t.i == 0xFFF#16 && t.v 15#4 == 0x55#8 && t.outcome == .ok
      []) = true := by
  decide +kernel

/-- V66. -/
theorem test_addIVx_over :
    run 0xF01E (at2 0xFFF 0#4 1#8 15#4 0x55#8) (fun t => t.i == 0#16 && t.v 15#4 == 0x55#8 && t.outcome == .ok
      [.indexOverflow]) = true := by
  decide +kernel

/-- V69. -/
theorem test_ldFVx :
    run 0xF329 (s0.setV 3#4 0x0F#8) (fun t => t.i == 0x09B#16 && t.outcome == .ok []) = true := by
  decide +kernel

/-- V70. -/
theorem test_ldFVx_over :
    run 0xF329 ((s0.setV 3#4 0x10#8).setI 0x300#16) (fun t => t.i == 0#16 && t.outcome == .ok
      [.fontDigitOutOfRange]) = true := by
  decide +kernel

/-- S7, V73. -/
theorem test_ldBVx :
    run 0xF033 (at2 0x310 0#4 0x9D#8 1#4 0#8) (fun t => t.readBytes 0x310 3 == [1#8, 5#8, 7#8] && t.i == 0x310#16)
      && run 0xF033 (at2 0xFFD 0#4 0x2A#8 1#4 0#8) (fun t => t.readBytes 0xFFD 3 == [0#8, 4#8, 2#8]) = true := by
  decide +kernel

/-- V74. -/
theorem test_ldBVx_fault :
    isFault (runAt 0x300 0xF033 (s0.setI 0xFFE#16)) .bcdWriteOutOfRange = true := by
  decide +kernel

/-- V75, V78. -/
theorem test_stRegs :
    run 0xF255 ((at2 0x310 0#4 1#8 1#4 2#8).setV 2#4 3#8) (fun t => t.readBytes 0x310 4 == [1#8, 2#8, 3#8, 0#8] &&
      t.i == 0x310#16) && run 0xF055 (at2 0xFFF 0#4 0x77#8 1#4 0#8) (fun t => t.readByte 0xFFF == 0x77#8) = true
      := by
  decide +kernel

/-- V77. -/
theorem test_stRegs_fatal :
    run 0xFF55 { s0.setI 0xFF1#16 with dt := 5#8 } (fun t => t.pc == 0x302#16 && t.dt == 5#8 && t.readByte 0xFF1
      == 0#8 && t.outcome == .fatal .blockTransferOutOfRange) = true := by
  decide +kernel

/-- V79, V81. -/
theorem test_ldRegs :
    run 0xF265 ((s0.setI 0x310#16).writeBytes 0x310 [1#8, 5#8, 7#8, 9#8]) (fun t => t.lowRegs 4 == [1#8, 5#8, 7#8,
      0#8] && t.i == 0x310#16) && run 0xFF65 ((s0.setI 0x310#16).writeByte 0x31F 0x99#8) (fun t => t.v 15#4 ==
      0x99#8) = true := by
  decide +kernel

/-- V80. -/
theorem test_ldRegs_fatal :
    run 0xF265 (at2 0xFFE 0#4 7#8 1#4 8#8) (fun t => t.pc == 0x302#16 && t.lowRegs 3 == [7#8, 8#8, 0#8] &&
      t.outcome == .fatal .blockTransferOutOfRange) = true := by
  decide +kernel

/-! ### Display (V82 to V94) -/

/-- V82. -/
theorem test_cls :
    run 0x00E0 (s0.setPixel 63 31 true) (fun t => t.pixel 63 31 == false && t.redraw) = true := by
  decide +kernel

/-- V85. -/
theorem test_drw_wrap :
    run 0xD011 ((at2 0x310 0#4 60#8 1#4 0#8).writeByte 0x310 0xFF#8) (fun t => (List.range 64).all (fun c =>
      t.pixel c 0 == (decide (c < 4) || decide (60 ≤ c))) && t.v 15#4 == 0#8 && t.redraw) = true := by
  decide +kernel

/-- V86. -/
theorem test_drw_clip :
    run 0xD015 ((at2 0x310 0#4 0#8 1#4 31#8).writeBytes 0x310 (List.replicate 5 0xFF#8)) (fun t => t.pixel 7 31 &&
      !t.pixel 8 31 && !t.pixel 0 0) = true := by
  decide +kernel

/-- V89. -/
theorem test_drw_collision :
    run 0xD012 (((at2 0x310 0#4 0#8 1#4 0#8).writeBytes 0x310 [0x80#8, 0x40#8]).setPixel 0 0 true) (fun t =>
      !t.pixel 0 0 && t.pixel 1 1 && t.v 15#4 == 1#8) = true := by
  decide +kernel

/-- V90. -/
theorem test_drw_no_collision :
    run 0xD011 (((at2 0x310 0#4 0#8 1#4 0#8).writeByte 0x310 0x80#8).setPixel 1 0 true) (fun t => t.pixel 0 0 &&
      t.pixel 1 0 && t.v 15#4 == 0#8) = true := by
  decide +kernel

/-- V91. -/
theorem test_drw_x_is_vf :
    run 0xDF11 ((at2 0x310 15#4 10#8 1#4 0#8).writeByte 0x310 0x80#8) (fun t => t.pixel 10 0 && !t.pixel 0 0 &&
      t.v 15#4 == 0#8) = true := by
  decide +kernel

/-- V88, V87. -/
theorem test_drw_no_rows :
    run 0xD000 (s0.setV 15#4 1#8) (fun t => t.v 15#4 == 0#8 && t.redraw) && run 0xD011 ((at2 0x310 0#4 126#8 1#4
      33#8).writeByte 0x310 0xC0#8) (fun t => t.pixel 62 1 && t.pixel 63 1 && !t.pixel 0 1) = true := by
  decide +kernel

/-- V92. -/
theorem test_drw_fault :
    isFault (runAt 0x300 0xD013 (s0.setI 0xFFE#16)) .spriteReadOutOfRange = true := by
  decide +kernel

/-- V93. -/
theorem test_drw_clipped_read :
    run 0xD015 ((at2 0xFFF 0#4 0#8 1#4 31#8).writeByte 0xFFF 0x80#8) (fun t => t.pixel 0 31 && t.outcome == .ok
      []) = true := by
  decide +kernel

/-! ### Keypad and timers (V95 to V107) -/

/-- V95, V96. -/
theorem test_skp :
    run 0xE19E ((s0.setV 1#4 7#8).setKey 7 true).1 (fun t => t.pc == 0x304#16) && run 0xE19E (s0.setV 1#4 7#8)
      (fun t => t.pc == 0x302#16) = true := by
  decide +kernel

/-- V98. -/
theorem test_skp_fault :
    isFault (runAt 0x300 0xE19E (s0.setV 1#4 0x10#8)) .keyIndexOutOfRange = true := by
  decide +kernel

/-- V97, R118. -/
theorem test_sknp :
    run 0xE1A1 (s0.setV 1#4 7#8) (fun t => t.pc == 0x304#16) && run 0xE1A1 ((s0.setV 1#4 15#8).setKey 15 true).1
      (fun t => t.pc == 0x302#16) = true := by
  decide +kernel

/-- V98. -/
theorem test_sknp_fault :
    isFault (runAt 0x300 0xE1A1 (s0.setV 1#4 0x10#8)) .keyIndexOutOfRange = true := by
  decide +kernel

/-- V99. -/
theorem test_ldVxDt :
    run 0xF307 { s0 with dt := 9#8 } (fun t => t.v 3#4 == 9#8 && t.dt == 8#8) = true := by
  decide +kernel

/-- V101. -/
theorem test_ldVxK_wait :
    nextSat (runAt 0x208 0xF30A { s0 with dt := 2#8 }) (fun t => t.pc == 0x208#16 && t.v 3#4 == 0#8 && t.dt ==
      1#8) = true := by
  decide +kernel

/-- V102. -/
theorem test_ldVxK_lowest :
    nextSat (runAt 0x208 0xF30A ((s0.setKey 7 true).1.setKey 10 true).1) (fun t => t.v 3#4 == 7#8 && t.pc ==
      0x20A#16 && t.key 7 && t.key 10) = true := by
  decide +kernel

/-- V104, V105. -/
theorem test_ldDtVx :
    run 0xF015 (s0.setV 0#4 3#8) (fun t => t.dt == 2#8) && run 0xF015 s0 (fun t => t.dt == 0#8) = true := by
  decide +kernel

/-- V106, V107. -/
theorem test_ldStVx :
    run 0xF018 (s0.setV 0#4 4#8) (fun t => t.st == 3#8 && t.soundFlag) && run 0xF018 (s0.setV 0#4 1#8) (fun t =>
      t.st == 0#8 && !t.soundFlag) = true := by
  decide +kernel

/-! ### Host calls (V108 to V117) -/

/-- V108, V109. -/
theorem test_setKey :
    (s0.setKey 3 true).1.key 3 = true ∧ s0.setKey 16 true = (s0, some .outOfRange) := by
  decide +kernel

/-- V110, V111. -/
theorem test_consumeRedraw :
    ({ s0 with redraw := true } : State).consumeRedraw.1 = true ∧ ({ s0 with redraw := true } :
      State).consumeRedraw.2.redraw = false ∧ s0.consumeRedraw.1 = false := by
  decide +kernel

/-- V112, V113, S4. -/
theorem test_readPixel :
    (s0.setPixel 5 6 true).readPixel 5 6 = (true, none) ∧ s0.readPixel 0 32 = (false, some .outOfRange) ∧
      s0.readPixel 64 0 = (false, some .outOfRange) := by
  decide +kernel

/-- V115. -/
theorem test_loadRom :
    ((s0.loadRom [0x12#8, 0#8, 0x12#8, 0#8]).1.loadRom [0x60#8, 1#8]).1.readBytes 0x200 4 = [0x60#8, 1#8, 0x12#8,
      0#8] ∧ ((s0.loadRom [0x12#8, 0#8, 0x12#8, 0#8]).1.loadRom [0x60#8, 1#8]).1.romSize = 2 := by
  decide +kernel

/-- V117. -/
theorem test_loadRom_empty : s0.loadRom [] = (s0, none) := by decide +kernel

/-- S8. -/
theorem test_loadRom_too_large : (s0.loadRom (List.replicate 3585 0#8)).2 = some .romTooLarge := by decide +kernel

/-! ### The ends of a run (R152) -/

/-- The run ended with the fault. -/
def isFatalEnd (e : RunStatus) (k : FatalKind) : Bool :=
  match e with
  | .fatal k' _ => k' == k
  | _ => false

/-- A good end whose state passes the check. -/
def goodSat (e : RunStatus) (p : State → Bool) : Bool :=
  match e with
  | .good t => p t
  | _ => false

/-- R152, case 1: the later boundaries of the idle loop, with other timers, are no part of the run. -/
theorem test_run_good_end_is_the_first :
    goodSat (runCalls [.loadRom [0x12#8, 0x00#8], .runCycle, .runCycle, .runCycle] { s0 with dt := 9#8 }) (fun t
      => t.dt == 8#8 && t.pc == 0x200#16) = true := by
  decide +kernel

/-- R152, case 2: a self-jump after a fatal cycle is no good end. -/
theorem test_run_fault_is_the_end :
    isFatalEnd (runCalls [.loadRom [0x00#8, 0xEE#8, 0x12#8, 0x02#8], .runCycle, .runCycle] s0) .stackUnderflow =
      true := by
  decide +kernel

/-! ### Witnesses -/

/-- A state with the top of the stack at depth `n`. -/
abbrev deep (n : Fin 17) : State := { s0 with sp := n }

/-- A state in which DRW V0, V1, 1 at I = 0x300 draws the one pixel (0,0). -/
abbrev dot : State := (s0.setI 0x300#16).writeByte 0x300 0x80#8

theorem witness_ConstructionGivesTheResetValues :
    ∃ s, s = State.construct Config.specDefault ∧ 0x04F < 0x050 ∧ (79 : Nat) < 80 ∧ 0x0A0 ≤ 4095 ∧ 4095 < 4096 ∧
      s.readByte (0x050 + 79) = 0x80#8 := ⟨_, rfl, by decide, by decide, by decide, by decide, by decide +kernel⟩

theorem witness_EveryStepKeepsWellFormedness : ∃ s t : State, s.Inv ∧ step s = .next t :=
  ⟨s0, after (step s0) s0, by decide +kernel, rfl⟩

theorem witness_HostCallsKeepWellFormedness : s0.Inv := by decide +kernel

theorem witness_EveryReachableStateIsWellFormed :
    Reachable Config.specDefault s0 ∧ Reachable Config.specDefault (s0.setKey 15 true).1 :=
  ⟨.construct, .call (.setKey 15 true) .construct rfl⟩

theorem witness_EqualReadsAreEqualMemories :
    ∃ s t : State, s.Inv ∧ t.Inv ∧ s.config.font = t.config.font ∧ ∀ a, a < 4096 → s.readByte a = t.readByte a :=
  ⟨s0, (s0.writeByte 0x300 7#8).writeByte 0x300 0#8, by decide +kernel, by decide +kernel, rfl, fun _ _ => rfl⟩

theorem witness_InstructionsWriteOnlyTheirParts : ∃ t, exec (.ldImm 0xF#4 7#8) s0 = .next t := ⟨_, rfl⟩

theorem witness_StepLeavesTheHostsStateAlone :
    ∃ s t : State, s.redraw = true ∧ step s = .next t := ⟨{ s0 with redraw := true }, _, rfl, rfl⟩

theorem witness_OnlyFlagWritersAndDestinationsChangeVF :
    ∃ t, exec (.ldImm 0xF#4 7#8) s0 = .next t ∧ t.v 0xF#4 ≠ s0.v 0xF#4 := ⟨_, rfl, by decide +kernel⟩

theorem witness_ProgramsCannotReadHostOutputs :
    (∃ t, exec .cls s0 = .next t) ∧ exec (.ldBVx 0#4) (s0.setI 0xFFE#16) = .fault .bcdWriteOutOfRange :=
  ⟨⟨_, rfl⟩, rfl⟩

theorem witness_OnlyKeyInstructionsReadKeys :
    (∀ x, Instr.cls ≠ .skp x ∧ Instr.cls ≠ .sknp x ∧ Instr.cls ≠ .ldVxK x) ∧ (∃ t, exec .cls s0 = .next t) ∧
      (∀ x, Instr.ldBVx 0#4 ≠ .skp x ∧ Instr.ldBVx 0#4 ≠ .sknp x ∧ Instr.ldBVx 0#4 ≠ .ldVxK x) ∧
      exec (.ldBVx 0#4) (s0.setI 0xFFE#16) = .fault .bcdWriteOutOfRange :=
  ⟨by simp, ⟨_, rfl⟩, by simp, rfl⟩

/-- The three cases at the boundary: the sprite row at 4096, I + 2 = 4096, key 16. -/
theorem witness_UndefinedOutcomesAreTheThreeCases :
    exec (.drw 0#4 1#4 2#4) (s0.setI 0xFFF#16) = .fault .spriteReadOutOfRange ∧
      exec (.ldBVx 0#4) (s0.setI 0xFFE#16) = .fault .bcdWriteOutOfRange ∧
      exec (.skp 0#4) (s0.setV 0#4 16#8) = .fault .keyIndexOutOfRange ∧
      (∃ t, exec (.drw 0#4 1#4 1#4) (s0.setI 0xFFF#16) = .next t) ∧
      (∃ t, exec (.ldBVx 0#4) (s0.setI 0xFFD#16) = .next t) ∧ ∃ t, exec (.skp 0#4) (s0.setV 0#4 15#8) = .next t :=
  ⟨rfl, rfl, rfl, ⟨_, rfl⟩, ⟨_, rfl⟩, ⟨_, rfl⟩⟩

theorem witness_FatalOutcomesHaveTheirCauses :
    s0.outcome.isFatal = false ∧
      (∃ t, exec (.call 0x300#12) (deep 16) = .next t ∧ t.outcome = .fatal .stackOverflow) ∧
      (∃ t, exec .ret (deep 0) = .next t ∧ t.outcome = .fatal .stackUnderflow) ∧
      (∃ t, exec (.ldRegs 1#4) (s0.setI 0xFFF#16) = .next t ∧ t.outcome = .fatal .blockTransferOutOfRange) ∧
      ∃ t, exec (.ldRegs 0#4) (s0.setI 0xFFF#16) = .next t ∧ t.outcome.isFatal = false :=
  ⟨rfl, ⟨_, rfl, rfl⟩, ⟨_, rfl, rfl⟩, ⟨_, rfl, rfl⟩, ⟨_, rfl, rfl⟩⟩

theorem witness_EncodeOfDecodeIsTheWord : decode 0xF065#16 = .ok (.ldRegs 0#4) := rfl

theorem witness_DecoderAcceptsExactlyTheOpcodeMap :
    wordWellFormed 0xFF65#16 = true ∧ wordWellFormed 0xFF66#16 = false := by decide +kernel

/-- One state per clause: a completion, a fatal execute step, an undefined one; the ROM-end check on in the first. -/
theorem witness_StepRunsTheDecodedInstruction :
    (∃ s t : State, s.pc.toNat + 1 ≤ 4095 ∧ (s.config.romEndCheck = true → s.pc.toNat < 0x200 + s.romSize) ∧
      s.config.romEndCheck = true ∧
      decode (wordOfBytes (s.readByte s.pc.toNat) (s.readByte (s.pc.toNat + 1))) = .ok (.ldImm 0#4 7#8) ∧
      exec (.ldImm 0#4 7#8) { s with pc := s.pc + 2#16, outcome := .ok [] } = .next t ∧ t.outcome.isFatal = false) ∧
    (∃ s t : State, s.pc.toNat + 1 ≤ 4095 ∧ (s.config.romEndCheck = true → s.pc.toNat < 0x200 + s.romSize) ∧
      decode (wordOfBytes (s.readByte s.pc.toNat) (s.readByte (s.pc.toNat + 1))) = .ok .ret ∧
      exec .ret { s with pc := s.pc + 2#16, outcome := .ok [] } = .next t ∧ t.outcome.isFatal = true) ∧
    ∃ s : State, s.pc.toNat + 1 ≤ 4095 ∧ (s.config.romEndCheck = true → s.pc.toNat < 0x200 + s.romSize) ∧
      decode (wordOfBytes (s.readByte s.pc.toNat) (s.readByte (s.pc.toNat + 1))) = .ok (.skp 0#4) ∧
      exec (.skp 0#4) { s with pc := s.pc + 2#16, outcome := .ok [] } = .fault .keyIndexOutOfRange :=
  ⟨⟨sr.withFetchWord 16 0x6007, _, by decide +kernel, by decide +kernel, rfl, by decide +kernel, rfl, rfl⟩,
    ⟨s0.withFetchWord 16 0x00EE, after (exec .ret (s0.withFetchWord 16 0x00EE).advance) s0, by decide +kernel,
      by decide +kernel, by decide +kernel, by rfl, by rfl⟩,
    ⟨(s0.setV 0#4 16#8).withFetchWord 16 0xE09E, by decide +kernel, by decide +kernel, by decide +kernel, by rfl⟩⟩

/-- The last pc at which a word can be fetched, and the first at which none can. -/
theorem witness_FetchPastMemoryIsFatal :
    (∃ s u : State, s.pc.toNat + 1 > 4095 ∧ s.pc = 0xFFF#16 ∧ KeepsAllBut [.outcome, .faults] s u) ∧
      ∃ s t : State, s.pc.toNat + 1 ≤ 4095 ∧ s.pc = 0xFFE#16 ∧ step s = .next t :=
  ⟨⟨s0.setPc 0xFFF#16, _, by decide +kernel, rfl, KeepsAllBut.refl _ _⟩, ⟨s0.setPc 0xFFE#16, _, by decide +kernel, rfl, rfl⟩⟩

theorem witness_FetchPastRomIsFatalOnlyWhenChecked :
    (∃ s : State, s.config.romEndCheck = true ∧ s.pc.toNat + 1 ≤ 4095 ∧ s.pc.toNat = 0x200 + s.romSize) ∧
      (∃ s t : State, s.config.romEndCheck = true ∧ s.pc.toNat + 1 = 0x200 + s.romSize ∧ step s = .next t) ∧
      ∃ s t : State, s.config.romEndCheck = false ∧ s.pc.toNat = 0x200 + s.romSize ∧ step s = .next t :=
  ⟨⟨sr, by decide +kernel⟩, ⟨{ sr with romSize := 1 }, _, rfl, by decide +kernel, rfl⟩,
    ⟨s0, _, rfl, by decide +kernel, rfl⟩⟩

theorem witness_UnknownOpcodeOnlyAdvancesAndTicks :
    ∃ s : State, s.pc = 0xFFE#16 ∧ s.pc.toNat + 1 ≤ 4095 ∧
      (s.config.romEndCheck = true → s.pc.toNat < 0x200 + s.romSize) ∧
      wordWellFormed (wordOfBytes (s.readByte s.pc.toNat) (s.readByte (s.pc.toNat + 1))) = false :=
  ⟨s0.setPc 0xFFE#16, rfl, by decide +kernel, by decide +kernel, by decide +kernel⟩

/-- A fatal fetch condition and a fatal execute condition. -/
theorem witness_FatalCycleKeepsOnlyTheAdvance :
    (∃ s t : State, step s = .next t ∧ t.outcome = .fatal .fetchPastRom) ∧
      ∃ s t : State, step s = .next t ∧ t.outcome = .fatal .stackUnderflow :=
  ⟨⟨sr, _, rfl, rfl⟩, ⟨s0.withFetchWord 16 0x00EE, after (step (s0.withFetchWord 16 0x00EE)) s0, by rfl, by rfl⟩⟩

theorem witness_EveryCompletedCycleTicksTheTimers :
    (∃ s t : State, step s = .next t ∧ t.outcome.isFatal = false ∧
      decode (wordOfBytes (s.readByte s.pc.toNat) (s.readByte (s.pc.toNat + 1))) = .ok (.ldDtVx 0#4)) ∧
    (∃ s t : State, step s = .next t ∧ t.outcome.isFatal = false ∧
      decode (wordOfBytes (s.readByte s.pc.toNat) (s.readByte (s.pc.toNat + 1))) = .ok (.ldStVx 0#4)) ∧
    (∃ s t : State, step s = .next t ∧ t.outcome.isFatal = true) ∧
    ∃ s t : State, step s = .next t ∧ t.outcome.isFatal = false ∧
      (∀ x, decode (wordOfBytes (s.readByte s.pc.toNat) (s.readByte (s.pc.toNat + 1))) ≠ .ok (.ldDtVx x) ∧
        decode (wordOfBytes (s.readByte s.pc.toNat) (s.readByte (s.pc.toNat + 1))) ≠ .ok (.ldStVx x)) :=
  ⟨⟨(s0.setV 0#4 1#8).withFetchWord 16 0xF015, after (step ((s0.setV 0#4 1#8).withFetchWord 16 0xF015)) s0, by rfl,
      by rfl, by decide +kernel⟩,
    ⟨(s0.setV 0#4 1#8).withFetchWord 16 0xF018, after (step ((s0.setV 0#4 1#8).withFetchWord 16 0xF018)) s0, by rfl,
      by rfl, by decide +kernel⟩,
    ⟨sr, _, rfl, rfl⟩,
    ⟨s0.withFetchWord 16 0x00E0, after (step (s0.withFetchWord 16 0x00E0)) s0, by rfl, by rfl, by decide +kernel⟩⟩

theorem witness_PlacedWordIsTheNextInstruction :
    s0.Inv ∧ ({ sr with pc := 0xFFF#16 } : State).Inv ∧ ({ sr with pc := 0xFFE#16 } : State).Inv := by decide +kernel

/-- A run that ends well at its first cycle, before its last call; one that ends fatally; one that ends undefined; and a
state at a self-jump. -/
theorem witness_SelfJumpChangesOnlyTheTimers :
    (∃ cs t, runCalls cs s0 = .good t ∧ cs.length = 3) ∧ (∃ cs t, runCalls cs sr = .fatal .fetchPastRom t) ∧
      (∃ cs, runCalls cs (s0.setV 0#4 16#8) = .undefined .keyIndexOutOfRange) ∧
      ∃ s : State, s.goodEnd ∧ (s.config.romEndCheck = true → s.pc.toNat < 0x200 + s.romSize) :=
  ⟨⟨[.loadRom [0x60#8, 0x07#8, 0x12#8, 0x02#8], .runCycle, .runCycle],
      after (step ((s0.loadRom [0x60#8, 0x07#8, 0x12#8, 0x02#8]).1)) s0, by rfl, rfl⟩,
    ⟨[.runCycle], after (step sr) s0, by rfl⟩, ⟨[.loadRom [0xE0#8, 0x9E#8], .runCycle], by rfl⟩,
    ⟨s0.withFetchWord 16 0x1200, ⟨by rfl, by decide +kernel⟩, by decide +kernel⟩⟩

/-- The last depth at which a call is taken, the first at which one is, and the full stack. -/
theorem witness_CallPushesTheReturnAddress :
    (15 : Fin 16).val = (deep 15).sp.val ∧ (0 : Fin 16).val = (deep 0).sp.val ∧ (deep 16).sp.val = 16 := by
  decide +kernel

theorem witness_RetPopsTheReturnAddress :
    (0 : Fin 16).val + 1 = (deep 1).sp.val ∧ (15 : Fin 16).val + 1 = (deep 16).sp.val ∧ (deep 0).sp.val = 0 := by
  decide +kernel

theorem witness_ReturnUndoesCall :
    ∃ s t t' : State, s.sp.val < 16 ∧ s.sp.val = 15 ∧ exec (.call 0x300#12) s = .next t ∧ SamePart .stack t t' ∧
      SamePart .sp t t' ∧ t'.v 0#4 ≠ t.v 0#4 :=
  ⟨deep 15, _, (after (exec (.call 0x300#12) (deep 15)) s0).setV 0#4 9#8, by decide +kernel, rfl, rfl, fun _ => rfl,
    rfl, by decide +kernel⟩

theorem witness_AddWritesCarryThenSum :
    s0.config.aluSelfRef = .seqFlagFirst ∧
      ∃ f a b : Nat, f = (if (s0.v 0xF#4).toNat + (s0.v 1#4).toNat > 255 then 1 else 0) ∧
        a = (if (0xF#4 : Nibble) = 0xF#4 then f else (s0.v 0xF#4).toNat) ∧
        b = (if (1#4 : Nibble) = 0xF#4 then f else (s0.v 1#4).toNat) := ⟨rfl, _, _, _, rfl, rfl, rfl⟩

theorem witness_SubtractionsWriteNotBorrowThenDifference :
    s0.config.aluSelfRef = .seqFlagFirst ∧
      (∃ f a b : Nat, f = (if (s0.v 0xF#4).toNat > (s0.v 1#4).toNat then 1 else 0) ∧
        a = (if (0xF#4 : Nibble) = 0xF#4 then f else (s0.v 0xF#4).toNat) ∧
        b = (if (1#4 : Nibble) = 0xF#4 then f else (s0.v 1#4).toNat)) ∧
      ∃ f a b : Nat, f = (if (s0.v 1#4).toNat > (s0.v 0xF#4).toNat then 1 else 0) ∧
        a = (if (0xF#4 : Nibble) = 0xF#4 then f else (s0.v 0xF#4).toNat) ∧
        b = (if (1#4 : Nibble) = 0xF#4 then f else (s0.v 1#4).toNat) :=
  ⟨rfl, ⟨_, _, _, rfl, rfl, rfl⟩, ⟨_, _, _, rfl, rfl, rfl⟩⟩

theorem witness_ShiftsWriteTheBitShiftedOut :
    s0.config.aluSelfRef = .seqFlagFirst ∧
      (∃ f a : Nat, f = (s0.v 0xF#4).toNat % 2 ∧ a = (if (0xF#4 : Nibble) = 0xF#4 then f else (s0.v 0xF#4).toNat)) ∧
      ∃ f a : Nat, f = (s0.v 0xF#4).toNat / 128 ∧ a = (if (0xF#4 : Nibble) = 0xF#4 then f else (s0.v 0xF#4).toNat) :=
  ⟨rfl, ⟨_, _, rfl, rfl⟩, ⟨_, _, rfl, rfl⟩⟩

theorem witness_LatchedOrderWritesVFLast : sl.config.aluSelfRef = .latchedFlagLast := rfl

theorem witness_OrderMattersOnlyForVF : (14#4 : Nibble) ≠ 0xF#4 ∧ (0#4 : Nibble) ≠ 0xF#4 ∧
    ∃ i, i = Instr.shl 14#4 0#4 := ⟨by decide, by decide, _, rfl⟩

/-- A sum of exactly 4095, and one of 4096. -/
theorem witness_AddToIndex :
    (∃ s : State, s.i.toNat + (s.v 0#4).toNat = 4095) ∧
      ∃ s : State, s.i.toNat + (s.v 0#4).toNat = 4096 ∧ s.outcome = .ok [] :=
  ⟨⟨at2 0xFFE 0#4 1#8 1#4 0#8, by decide +kernel⟩, ⟨at2 0xFFF 0#4 1#8 1#4 0#8, by decide +kernel, rfl⟩⟩

theorem witness_PointIndexAtGlyph :
    (∃ s : State, (s.v 0#4).toNat < 16 ∧ (s.v 0#4).toNat = 15) ∧
      ∃ s : State, (s.v 0#4).toNat ≥ 16 ∧ (s.v 0#4).toNat = 16 ∧ s.outcome = .ok [] :=
  ⟨⟨s0.setV 0#4 15#8, by decide +kernel⟩, ⟨s0.setV 0#4 16#8, by decide +kernel, by decide +kernel, rfl⟩⟩

theorem witness_StoreDecimalDigits :
    (∃ s : State, s.Inv ∧ s.indexAddr + 2 = 4095) ∧ ∃ s : State, s.Inv ∧ s.indexAddr + 2 = 4096 :=
  ⟨⟨s0.setI 0xFFD#16, by decide +kernel⟩, ⟨s0.setI 0xFFE#16, by decide +kernel⟩⟩

theorem witness_StoreRegisterBlock :
    (∃ s : State, s.Inv ∧ s.indexAddr + (0xF#4 : Nibble).toNat = 4095) ∧
      ∃ s : State, s.Inv ∧ s.indexAddr + (0xF#4 : Nibble).toNat = 4096 :=
  ⟨⟨s0.setI 0xFF0#16, by decide +kernel⟩, ⟨s0.setI 0xFF1#16, by decide +kernel⟩⟩

theorem witness_LoadRegisterBlock :
    (∃ s : State, s.indexAddr + (0#4 : Nibble).toNat = 4095 ∧ ∃ k : Nibble, (0#4 : Nibble).toNat < k.toNat) ∧
      ∃ s : State, s.indexAddr + (1#4 : Nibble).toNat = 4096 :=
  ⟨⟨s0.setI 0xFFF#16, by decide +kernel, 1#4, by decide⟩, ⟨s0.setI 0xFFF#16, by decide +kernel⟩⟩

theorem witness_BlockLoadUndoesBlockStore :
    ∃ s t t' : State, s.Inv ∧ s.indexAddr + (0xF#4 : Nibble).toNat ≤ 4095 ∧ exec (.stRegs 0xF#4) s = .next t ∧
      SamePart .mem t t' ∧ SamePart .i t t' :=
  ⟨at2 0xFF0 0#4 7#8 15#4 9#8, after (exec (.stRegs 0xF#4) (at2 0xFF0 0#4 7#8 15#4 9#8)) s0,
    after (exec (.stRegs 0xF#4) (at2 0xFF0 0#4 7#8 15#4 9#8)) s0, by decide +kernel, by decide +kernel, by rfl,
    fun _ => rfl, rfl⟩

theorem witness_StoredBytesAreFetched :
    ∃ s t t' : State, s.Inv ∧ s.indexAddr + (1#4 : Nibble).toNat ≤ 4095 ∧
      (1#4 : Nibble).toNat = (0#4 : Nibble).toNat + 1 ∧ exec (.stRegs 1#4) s = .next t ∧ SamePart .mem t t' ∧
      t'.pc.toNat = s.indexAddr + (0#4 : Nibble).toNat :=
  ⟨at2 0xFFE 0#4 0x60#8 1#4 7#8, after (exec (.stRegs 1#4) (at2 0xFFE 0#4 0x60#8 1#4 7#8)) s0,
    (after (exec (.stRegs 1#4) (at2 0xFFE 0#4 0x60#8 1#4 7#8)) s0).setPc 0xFFE#16, by decide +kernel,
    by decide +kernel, by decide, by rfl, fun _ => rfl, by decide +kernel⟩

/-- No row; a clipped row at the last address; a collision; and no collision. -/
theorem witness_DrawSpriteXorsAndReportsCollision :
    (∃ rows, rows = min (0#4 : Nibble).toNat (32 - (s0.v 1#4).toNat % 32) ∧ rows = 0) ∧
      (∃ (s : State) (rows : Nat), rows = min (5#4 : Nibble).toNat (32 - (s.v 1#4).toNat % 32) ∧ rows = 1 ∧
        s.i.toNat + rows - 1 = 4095) ∧
      (∃ s : State, ∃ r c, r < 1 ∧ c < 8 ∧ (s.readByte (s.i.toNat + r)).getLsbD (7 - c) = true ∧
        s.pixel ((0 + c) % 64) (0 + r) = true) ∧
      ∃ s : State, ∀ r c, r < 1 → c < 8 → (s.readByte (s.i.toNat + r)).getLsbD (7 - c) = true →
        s.pixel ((0 + c) % 64) (0 + r) = false :=
  ⟨⟨_, rfl, by decide +kernel⟩,
    ⟨at2 0xFFF 0#4 0#8 1#4 31#8, 1, by decide +kernel, rfl, by decide +kernel⟩,
    ⟨dot.setPixel 0 0 true, 0, 0, by decide, by decide, by decide +kernel, by decide +kernel⟩,
    ⟨dot, fun r c _ _ _ => by simp [dot, State.writeByte, State.setI, State.pixel, State.reset, State.construct]⟩⟩

theorem witness_SpritePastMemoryIsUndefined :
    (∃ (s : State) (rows : Nat), rows = min (2#4 : Nibble).toNat (32 - (s.v 1#4).toNat % 32) ∧ rows > 0 ∧
      s.i.toNat + rows - 1 = 4096) ∧
      (∃ (s : State) (rows : Nat), rows = min (1#4 : Nibble).toNat (32 - (s.v 1#4).toNat % 32) ∧
        s.i.toNat + rows - 1 = 4095) ∧
      ∃ (s : State) (rows : Nat), rows = min (0#4 : Nibble).toNat (32 - (s.v 1#4).toNat % 32) ∧ rows = 0 :=
  ⟨⟨s0.setI 0xFFF#16, 2, by decide +kernel⟩, ⟨s0.setI 0xFFF#16, 1, by decide +kernel⟩, ⟨s0, 0, by decide +kernel⟩⟩

/-- The same dot drawn twice. -/
theorem witness_DrawingTwiceRestoresTheFramebuffer :
    ∃ s t t' u : State, ∃ x0 y0 rows : Nat, x0 = (s.v 0#4).toNat % 64 ∧ y0 = (s.v 1#4).toNat % 32 ∧
      rows = min (1#4 : Nibble).toNat (32 - y0) ∧ exec (.drw 0#4 1#4 1#4) s = .next t ∧
      exec (.drw 0#4 1#4 1#4) t' = .next u ∧ SamePart .fb t t' ∧ t'.i = s.i ∧ (t'.v 0#4).toNat % 64 = x0 ∧
      (t'.v 1#4).toNat % 32 = y0 ∧
      (∀ r, r < rows → t'.readByte (s.i.toNat + r) = s.readByte (s.i.toNat + r)) ∧ (t.v 0xF#4).toNat = 0 :=
  ⟨dot, after (exec (.drw 0#4 1#4 1#4) dot) s0, after (exec (.drw 0#4 1#4 1#4) dot) s0,
    after (exec (.drw 0#4 1#4 1#4) (after (exec (.drw 0#4 1#4 1#4) dot) s0)) s0, 0, 0, 1, by decide +kernel,
    by decide +kernel, by decide +kernel, by rfl, by rfl, fun _ _ => rfl, by decide +kernel, by decide +kernel,
    by decide +kernel, by decide +kernel, by decide +kernel⟩

/-- R116's literal last clause is met by the premises below and has a different outcome: the dot drawn twice over a set
pixel. -/
theorem witness_SecondDrawCollidesWheneverABitIsDrawn :
    ∃ s t u : State, exec (.drw 0#4 1#4 1#4) s = .next t ∧ exec (.drw 0#4 1#4 1#4) t = .next u ∧ t.i = s.i ∧
      (t.v 0#4).toNat % 64 = (s.v 0#4).toNat % 64 ∧ (t.v 1#4).toNat % 32 = (s.v 1#4).toNat % 32 ∧
      t.readByte 0x300 = s.readByte 0x300 ∧ (t.v 0xF#4).toNat = 1 ∧ (u.v 0xF#4).toNat = 0 :=
  ⟨dot.setPixel 0 0 true, after (exec (.drw 0#4 1#4 1#4) (dot.setPixel 0 0 true)) s0,
    after (exec (.drw 0#4 1#4 1#4) (after (exec (.drw 0#4 1#4 1#4) (dot.setPixel 0 0 true)) s0)) s0, by rfl, by rfl,
    by decide +kernel, by decide +kernel, by decide +kernel, by decide +kernel, by decide +kernel, by decide +kernel⟩

theorem witness_KeySkips :
    (∃ s : State, (s.v 0#4).toNat < 16 ∧ (s.v 0#4).toNat = 15) ∧
      ∃ s : State, (s.v 0#4).toNat ≥ 16 ∧ (s.v 0#4).toNat = 16 :=
  ⟨⟨s0.setV 0#4 15#8, by decide +kernel⟩, ⟨s0.setV 0#4 16#8, by decide +kernel⟩⟩

theorem witness_WaitForKey :
    (∃ (s : State) (k : Nat), k = 15 ∧ k < 16 ∧ s.key k = true ∧ ∀ j, j < k → s.key j = false) ∧
      ∃ s : State, ∀ k, k < 16 → s.key k = false :=
  ⟨⟨(s0.setKey 15 true).1, 15, rfl, by decide, by decide +kernel, by decide +kernel⟩, ⟨s0, by decide +kernel⟩⟩

theorem witness_SetKeyWritesOneKey : (15 : Nat) < 16 ∧ (16 : Nat) ≥ 16 ∧ (14 : Nat) ≠ 15 := by decide

theorem witness_RedrawAndSoundFlags :
    ∃ s t : State, hostCall .consumeRedraw s = .next t ∧ s.redraw = true ∧ t.redraw = false :=
  ⟨{ s0 with redraw := true }, _, rfl, rfl, rfl⟩

theorem witness_ReadPixelInAndOutOfRange :
    (∃ c r : Nat, (63 : Int) = c ∧ (31 : Int) = r ∧ c < 64 ∧ r < 32) ∧
      ((-1 : Int) < 0 ∧ (64 : Int) ≤ 64 ∧ (32 : Int) ≤ 32) := ⟨⟨63, 31, by decide⟩, by decide⟩

theorem witness_LoadRomCopiesAndRecordsSize :
    s0.Inv ∧ (List.replicate 3584 (0#8 : Byte)).length ≤ 3584 ∧ (List.replicate 3585 (0#8 : Byte)).length > 3584 :=
  ⟨by decide +kernel, Nat.le_of_eq List.length_replicate, by rw [List.length_replicate]; omega⟩

end Sys2Proof.Tests
end

section
/-! Proofs about the decoder: what it answers on a word, that it reads an encoded instruction back, and that the
encoded words are those of the opcode map (spec/30_encoding.md R50 to R60). -/

namespace Sys2Proof

/-! ### A word from the values of its fixed fields -/

theorem packNnn_of_fields {w : Word} {op : Nibble} (hop : (fieldOp w).toNat = op.toNat) :
    packNnn op (fieldNnn w) = w := by
  rw [← BitVec.eq_of_toNat_eq hop, packNnn_fields]

theorem packXNn_of_fieldOp {w : Word} {op : Nibble} (hop : (fieldOp w).toNat = op.toNat) :
    packXNn op (fieldX w) (fieldNn w) = w := by
  rw [← BitVec.eq_of_toNat_eq hop, packXNn_fields]

theorem packXNn_of_fields {w : Word} {op : Nibble} {nn : Byte} (hop : (fieldOp w).toNat = op.toNat)
    (hnn : (fieldNn w).toNat = nn.toNat) : packXNn op (fieldX w) nn = w := by
  rw [← BitVec.eq_of_toNat_eq hnn, packXNn_of_fieldOp hop]

theorem packXYN_of_fieldOp {w : Word} {op : Nibble} (hop : (fieldOp w).toNat = op.toNat) :
    packXYN op (fieldX w) (fieldY w) (fieldN w) = w := by
  rw [← BitVec.eq_of_toNat_eq hop, packXYN_fields]

theorem packXYN_of_fields {w : Word} {op n : Nibble} (hop : (fieldOp w).toNat = op.toNat)
    (hn : (fieldN w).toNat = n.toNat) : packXYN op (fieldX w) (fieldY w) n = w := by
  rw [← BitVec.eq_of_toNat_eq hn, packXYN_of_fieldOp hop]

theorem eq_packXYN_of_and_F000 {w : Word} {op : Nibble} (h : w &&& 0xF000#16 = packNnn op 0#12) :
    w = packXYN op (fieldX w) (fieldY w) (fieldN w) := by
  have hop : fieldOp w = op := by rw [eq_packNnn_of_and_F000 h, fieldOp_packNnn]
  rw [← hop, packXYN_fields]

/-! ### What the decoder answers -/

/-- The answer fits the word: an instruction is one that the word encodes, and a rejection names the word (R59). -/
def AnswerFits (w : Word) : Except DecodeReject Instr → Prop
  | .ok i => encode i = w
  | .error e => e = .unknownOpcode w

theorem decodeFamily0_fits {w : Word} (hop : (fieldOp w).toNat = 0x0) : AnswerFits w (decodeFamily0 w) := by
  have pack {nnn : Addr12} (hnnn : (fieldNnn w).toNat = nnn.toNat) : packNnn 0x0#4 nnn = w := by
    rw [← BitVec.eq_of_toNat_eq hnnn, packNnn_of_fields hop]
  unfold decodeFamily0
  split
  · exact pack (nnn := 0x0E0#12) ‹_›
  · exact pack (nnn := 0x0EE#12) ‹_›
  · rfl

theorem decodeFamily5_fits {w : Word} (hop : (fieldOp w).toNat = 0x5) : AnswerFits w (decodeFamily5 w) := by
  unfold decodeFamily5
  split
  · exact packXYN_of_fields hop ‹_›
  · rfl

theorem decodeFamily8_fits {w : Word} (hop : (fieldOp w).toNat = 0x8) : AnswerFits w (decodeFamily8 w) := by
  unfold decodeFamily8
  split
  on_goal -1 => rfl
  all_goals exact packXYN_of_fields hop ‹_›

theorem decodeFamily9_fits {w : Word} (hop : (fieldOp w).toNat = 0x9) : AnswerFits w (decodeFamily9 w) := by
  unfold decodeFamily9
  split
  · exact packXYN_of_fields hop ‹_›
  · rfl

theorem decodeFamilyE_fits {w : Word} (hop : (fieldOp w).toNat = 0xE) : AnswerFits w (decodeFamilyE w) := by
  unfold decodeFamilyE
  split
  on_goal -1 => rfl
  all_goals exact packXNn_of_fields hop ‹_›

theorem decodeFamilyF_fits {w : Word} (hop : (fieldOp w).toNat = 0xF) : AnswerFits w (decodeFamilyF w) := by
  unfold decodeFamilyF
  split
  on_goal -1 => rfl
  all_goals exact packXNn_of_fields hop ‹_›

/-- What the decoder can answer, said once, family by family (R53 to R59). -/
theorem decode_fits (w : Word) : AnswerFits w (decode w) := by
  unfold decode
  split
  · exact decodeFamily0_fits ‹_›
  · exact packNnn_of_fields ‹_›
  · exact packNnn_of_fields ‹_›
  · exact packXNn_of_fieldOp ‹_›
  · exact packXNn_of_fieldOp ‹_›
  · exact decodeFamily5_fits ‹_›
  · exact packXNn_of_fieldOp ‹_›
  · exact packXNn_of_fieldOp ‹_›
  · exact decodeFamily8_fits ‹_›
  · exact decodeFamily9_fits ‹_›
  · exact packNnn_of_fields ‹_›
  · exact packNnn_of_fields ‹_›
  · exact packXNn_of_fieldOp ‹_›
  · exact packXYN_of_fieldOp ‹_›
  · exact decodeFamilyE_fits ‹_›
  · exact decodeFamilyF_fits ‹_›
  · rfl

theorem encode_eq_of_decode_eq_ok {w : Word} {i : Instr} (h : decode w = .ok i) : encode i = w := by
  have hfits := decode_fits w
  rwa [h] at hfits

theorem eq_unknownOpcode_of_decode_eq_error {w : Word} {e : DecodeReject} (h : decode w = .error e) :
    e = .unknownOpcode w := by
  have hfits := decode_fits w
  rwa [h] at hfits

@[simp] theorem decode_encode (i : Instr) : decode (encode i) = .ok i := by
  cases i
  case cls | ret => rfl
  all_goals simp [encode, decode, decodeFamily5, decodeFamily8, decodeFamily9, decodeFamilyE, decodeFamilyF]

/-- The decoder inverts the encoder, so the words it accepts are the encoded ones. -/
theorem decode_eq_ok_iff {w : Word} {i : Instr} : decode w = .ok i ↔ encode i = w := by
  constructor
  · exact encode_eq_of_decode_eq_ok
  · rintro rfl
    exact decode_encode i

/-! ### The words of the opcode map -/

/-- The family EncodesInRow, put together: every instruction's word lies in its own row, and that row is in the map. -/
theorem encodesInRow : ∀ i : Instr, Laws.EncodesInRow.Statement i
  | .cls => Laws.EncodesInRow.cls
  | .ret => Laws.EncodesInRow.ret
  | .jp nnn => Laws.EncodesInRow.jp nnn
  | .call nnn => Laws.EncodesInRow.call nnn
  | .seImm x nn => Laws.EncodesInRow.seImm x nn
  | .sneImm x nn => Laws.EncodesInRow.sneImm x nn
  | .seReg x y => Laws.EncodesInRow.seReg x y
  | .ldImm x nn => Laws.EncodesInRow.ldImm x nn
  | .addImm x nn => Laws.EncodesInRow.addImm x nn
  | .ldReg x y => Laws.EncodesInRow.ldReg x y
  | .orReg x y => Laws.EncodesInRow.orReg x y
  | .andReg x y => Laws.EncodesInRow.andReg x y
  | .xorReg x y => Laws.EncodesInRow.xorReg x y
  | .addReg x y => Laws.EncodesInRow.addReg x y
  | .subReg x y => Laws.EncodesInRow.subReg x y
  | .shr x y => Laws.EncodesInRow.shr x y
  | .subnReg x y => Laws.EncodesInRow.subnReg x y
  | .shl x y => Laws.EncodesInRow.shl x y
  | .sneReg x y => Laws.EncodesInRow.sneReg x y
  | .ldI nnn => Laws.EncodesInRow.ldI nnn
  | .jpV0 nnn => Laws.EncodesInRow.jpV0 nnn
  | .rnd x nn => Laws.EncodesInRow.rnd x nn
  | .drw x y n => Laws.EncodesInRow.drw x y n
  | .skp x => Laws.EncodesInRow.skp x
  | .sknp x => Laws.EncodesInRow.sknp x
  | .ldVxDt x => Laws.EncodesInRow.ldVxDt x
  | .ldVxK x => Laws.EncodesInRow.ldVxK x
  | .ldDtVx x => Laws.EncodesInRow.ldDtVx x
  | .ldStVx x => Laws.EncodesInRow.ldStVx x
  | .addIVx x => Laws.EncodesInRow.addIVx x
  | .ldFVx x => Laws.EncodesInRow.ldFVx x
  | .ldBVx x => Laws.EncodesInRow.ldBVx x
  | .stRegs x => Laws.EncodesInRow.stRegs x
  | .ldRegs x => Laws.EncodesInRow.ldRegs x

theorem wordWellFormed_encode (i : Instr) : wordWellFormed (encode i) = true := by
  obtain ⟨hmatch, hmem⟩ := encodesInRow i
  exact List.any_eq_true.mpr ⟨i.row, List.contains_iff_mem.mp hmem, beq_iff_eq.mpr hmatch⟩

/-- One instruction for each row of the opcode map, in the map's order. -/
def rowInstrs : List Instr :=
  [.cls, .ret, .jp 0, .call 0, .seImm 0 0, .sneImm 0 0, .seReg 0 0, .ldImm 0 0, .addImm 0 0, .ldReg 0 0,
   .orReg 0 0, .andReg 0 0, .xorReg 0 0, .addReg 0 0, .subReg 0 0, .shr 0 0, .subnReg 0 0, .shl 0 0, .sneReg 0 0,
   .ldI 0, .jpV0 0, .rnd 0 0, .drw 0 0 0, .skp 0, .sknp 0, .ldVxDt 0, .ldVxK 0, .ldDtVx 0, .ldStVx 0, .addIVx 0,
   .ldFVx 0, .ldBVx 0, .stRegs 0, .ldRegs 0]

theorem opcodeRows_eq_map_row : opcodeRows = rowInstrs.map Instr.row := rfl

theorem exists_row_eq_of_mem_opcodeRows {r : OpRow} (h : r ∈ opcodeRows) : ∃ i : Instr, i.row = r := by
  rw [opcodeRows_eq_map_row] at h
  obtain ⟨i, _, hrow⟩ := List.mem_map.mp h
  exact ⟨i, hrow⟩

/-- A word in an instruction's row is the word of an instruction: the row's constructor on the word's own fields. -/
theorem exists_encode_eq_of_row {w : Word} : ∀ i : Instr, w &&& i.row.mask = i.row.bits → ∃ j, encode j = w
  | .cls, h => ⟨.cls, (BitVec.and_allOnes.symm.trans h).symm⟩
  | .ret, h => ⟨.ret, (BitVec.and_allOnes.symm.trans h).symm⟩
  | .jp _, h => ⟨.jp (fieldNnn w), (eq_packNnn_of_and_F000 h).symm⟩
  | .call _, h => ⟨.call (fieldNnn w), (eq_packNnn_of_and_F000 h).symm⟩
  | .seImm _ _, h => ⟨.seImm (fieldX w) (fieldNn w), (eq_packXNn_of_and_F000 h).symm⟩
  | .sneImm _ _, h => ⟨.sneImm (fieldX w) (fieldNn w), (eq_packXNn_of_and_F000 h).symm⟩
  | .seReg _ _, h => ⟨.seReg (fieldX w) (fieldY w), (eq_packXYN_of_and_F00F h).symm⟩
  | .ldImm _ _, h => ⟨.ldImm (fieldX w) (fieldNn w), (eq_packXNn_of_and_F000 h).symm⟩
  | .addImm _ _, h => ⟨.addImm (fieldX w) (fieldNn w), (eq_packXNn_of_and_F000 h).symm⟩
  | .ldReg _ _, h => ⟨.ldReg (fieldX w) (fieldY w), (eq_packXYN_of_and_F00F h).symm⟩
  | .orReg _ _, h => ⟨.orReg (fieldX w) (fieldY w), (eq_packXYN_of_and_F00F h).symm⟩
  | .andReg _ _, h => ⟨.andReg (fieldX w) (fieldY w), (eq_packXYN_of_and_F00F h).symm⟩
  | .xorReg _ _, h => ⟨.xorReg (fieldX w) (fieldY w), (eq_packXYN_of_and_F00F h).symm⟩
  | .addReg _ _, h => ⟨.addReg (fieldX w) (fieldY w), (eq_packXYN_of_and_F00F h).symm⟩
  | .subReg _ _, h => ⟨.subReg (fieldX w) (fieldY w), (eq_packXYN_of_and_F00F h).symm⟩
  | .shr _ _, h => ⟨.shr (fieldX w) (fieldY w), (eq_packXYN_of_and_F00F h).symm⟩
  | .subnReg _ _, h => ⟨.subnReg (fieldX w) (fieldY w), (eq_packXYN_of_and_F00F h).symm⟩
  | .shl _ _, h => ⟨.shl (fieldX w) (fieldY w), (eq_packXYN_of_and_F00F h).symm⟩
  | .sneReg _ _, h => ⟨.sneReg (fieldX w) (fieldY w), (eq_packXYN_of_and_F00F h).symm⟩
  | .ldI _, h => ⟨.ldI (fieldNnn w), (eq_packNnn_of_and_F000 h).symm⟩
  | .jpV0 _, h => ⟨.jpV0 (fieldNnn w), (eq_packNnn_of_and_F000 h).symm⟩
  | .rnd _ _, h => ⟨.rnd (fieldX w) (fieldNn w), (eq_packXNn_of_and_F000 h).symm⟩
  | .drw _ _ _, h => ⟨.drw (fieldX w) (fieldY w) (fieldN w), (eq_packXYN_of_and_F000 h).symm⟩
  | .skp _, h => ⟨.skp (fieldX w), (eq_packXNn_of_and_F0FF h).symm⟩
  | .sknp _, h => ⟨.sknp (fieldX w), (eq_packXNn_of_and_F0FF h).symm⟩
  | .ldVxDt _, h => ⟨.ldVxDt (fieldX w), (eq_packXNn_of_and_F0FF h).symm⟩
  | .ldVxK _, h => ⟨.ldVxK (fieldX w), (eq_packXNn_of_and_F0FF h).symm⟩
  | .ldDtVx _, h => ⟨.ldDtVx (fieldX w), (eq_packXNn_of_and_F0FF h).symm⟩
  | .ldStVx _, h => ⟨.ldStVx (fieldX w), (eq_packXNn_of_and_F0FF h).symm⟩
  | .addIVx _, h => ⟨.addIVx (fieldX w), (eq_packXNn_of_and_F0FF h).symm⟩
  | .ldFVx _, h => ⟨.ldFVx (fieldX w), (eq_packXNn_of_and_F0FF h).symm⟩
  | .ldBVx _, h => ⟨.ldBVx (fieldX w), (eq_packXNn_of_and_F0FF h).symm⟩
  | .stRegs _, h => ⟨.stRegs (fieldX w), (eq_packXNn_of_and_F0FF h).symm⟩
  | .ldRegs _, h => ⟨.ldRegs (fieldX w), (eq_packXNn_of_and_F0FF h).symm⟩

/-- The opcode map holds exactly the words of the instructions. -/
theorem wordWellFormed_iff_exists_encode (w : Word) : wordWellFormed w = true ↔ ∃ i, encode i = w := by
  constructor
  · intro hw
    obtain ⟨r, hmem, hmatch⟩ := List.any_eq_true.mp hw
    obtain ⟨i, rfl⟩ := exists_row_eq_of_mem_opcodeRows hmem
    exact exists_encode_eq_of_row i (beq_iff_eq.mp hmatch)
  · rintro ⟨i, rfl⟩
    exact wordWellFormed_encode i

/-! ### The decoder and the opcode map -/

theorem exists_decode_eq_ok_iff (w : Word) : (∃ i, decode w = .ok i) ↔ wordWellFormed w = true := by
  simp only [decode_eq_ok_iff, wordWellFormed_iff_exists_encode]

theorem decode_eq_unknownOpcode_of_not_wellFormed {w : Word} (h : wordWellFormed w = false) :
    decode w = .error (.unknownOpcode w) := by
  cases hd : decode w with
  | ok i =>
    have hw := (exists_decode_eq_ok_iff w).mp ⟨i, hd⟩
    rw [h] at hw
    contradiction
  | error e => rw [eq_unknownOpcode_of_decode_eq_error hd]

/-- Settles O16: the words the decoder accepts are those it reads back from an instruction's encoding, and these are
the words in the 34 rows. -/
theorem decoderAcceptsExactlyTheOpcodeMap : Obligations.DecoderAcceptsExactlyTheOpcodeMap := by
  intro w
  exact ⟨exists_decode_eq_ok_iff w, decode_eq_unknownOpcode_of_not_wellFormed⟩

end Sys2Proof
end

section
/-! Proofs about the state as a whole: the part of it that each instruction writes and reads, and the ranges that every
cycle and every host call keep (spec/10_state.md R15 to R33). -/

namespace Sys2Proof.Machine

/-! ### Properties of a completed execute step -/

/-- If the step completes, its next state has the property. -/
def Completes (P : State → Prop) : Host.Outcome State Fault Refusal → Prop
  | .next t => P t
  | .fault _ => True
  | .refused _ => True

theorem Completes.of_eq_next {P : State → Prop} {o : Host.Outcome State Fault Refusal} {t : State}
    (h : Completes P o) (ho : o = .next t) : P t := by
  rwa [ho] at h

theorem Completes.mono {P Q : State → Prop} {o : Host.Outcome State Fault Refusal} (h : Completes P o)
    (hPQ : ∀ t, P t → Q t) : Completes Q o := by
  cases o with
  | next t => exact hPQ t h
  | fault | refused => trivial

theorem Completes.ite {P : State → Prop} {c : Prop} [Decidable c] {o o' : Host.Outcome State Fault Refusal}
    (h : c → Completes P o) (h' : ¬c → Completes P o') : Completes P (if c then o else o') := by
  split
  · exact h ‹_›
  · exact h' ‹_›

/-! ### The instructions that branch on an operation's answer, by cases -/

/-- RET either finds the stack empty or decrements SP and puts the entry there into pc (R76). -/
theorem execRet_cases (s : State) :
    (s.sp.val = 0 ∧ execRet s = .next (s.raiseFatal .stackUnderflow)) ∨
      ∃ (k : Fin 16) (sp' : Fin 17), k.val + 1 = s.sp.val ∧ sp'.val = k.val ∧
        execRet s = .next (State.setPc { s with sp := sp' } (s.entry k)) := by
  unfold execRet
  by_cases h : s.sp.val = 0
  · rw [pop_of_empty s h]
    exact .inl ⟨h, rfl⟩
  · rw [pop_of_pos s h]
    exact .inr ⟨_, _, Nat.sub_one_add_one h, rfl, rfl⟩

/-- CALL either finds the stack full or stores pc at SP, increments SP and jumps (R78). -/
theorem execCall_cases (nnn : Addr12) (s : State) :
    (s.sp.val = 16 ∧ execCall nnn s = .next (s.raiseFatal .stackOverflow)) ∨
      ∃ (h : s.sp.val < 16) (sp' : Fin 17), sp'.val = s.sp.val + 1 ∧ execCall nnn s =
        .next (State.setPc { s with stack := s.stack.set s.sp.val s.pc h, sp := sp' } (addrOf nnn)) := by
  unfold execCall
  by_cases h : s.sp.val < 16
  · rw [push_of_lt s _ h]
    exact .inr ⟨h, _, rfl, rfl⟩
  · have hfull : s.sp.val = 16 := by omega
    rw [push_of_full s _ hfull]
    exact .inl ⟨hfull, rfl⟩

/-- The wait for a key either loads the first pressed key or, with none pressed, rewinds pc (R120). -/
theorem execLdVxK_cases (x : Nibble) (s : State) :
    (∃ k, s.firstKey = some k ∧ execLdVxK x s = .next (s.setV x (BitVec.ofNat 8 k))) ∨
      (s.firstKey = none ∧ execLdVxK x s = .next (s.setPc (s.pc - 2#16))) := by
  unfold execLdVxK
  cases s.firstKey with
  | some k => exact .inl ⟨k, rfl, rfl⟩
  | none => exact .inr ⟨rfl, rfl⟩

/-! ### The parts an instruction writes -/

theorem keepsAllBut_stack_sp (s : State) (st : Vector Word 16) (n : Fin 17) :
    KeepsAllBut [.stack, .sp] s { s with stack := st, sp := n } := by
  intro p hp
  cases p with
  | stack | sp => simp at hp
  | mem | regs | keys => exact fun _ => rfl
  | fb => exact fun _ _ => rfl
  | _ => rfl

theorem keepsAllBut_sp (s : State) (n : Fin 17) : KeepsAllBut [.sp] s { s with sp := n } := by
  intro p hp
  cases p with
  | sp => simp at hp
  | mem | regs | stack | keys => exact fun _ => rfl
  | fb => exact fun _ _ => rfl
  | _ => rfl

/-- Two frames in a row: the parts of both may differ. -/
theorem KeepsAllBut.comp {ps qs : List Part} {s t u : State} (h : KeepsAllBut ps s t) (h' : KeepsAllBut qs t u) :
    KeepsAllBut (ps ++ qs) s u :=
  (h.mono (List.subset_append_left _ _)).trans (h'.mono (List.subset_append_right _ _))

theorem execRet_frame (s : State) : Completes (KeepsAllBut (instrWrites .ret) s) (execRet s) := by
  rcases execRet_cases s with ⟨-, he⟩ | ⟨k, sp', -, -, he⟩ <;> rw [he]
  · exact (keepsAllBut_raiseFatal s _).mono (by decide)
  · exact ((keepsAllBut_sp s sp').comp (keepsAllBut_setPc _ _)).mono (by decide)

theorem execCall_frame (nnn : Addr12) (s : State) :
    Completes (KeepsAllBut (instrWrites (.call nnn)) s) (execCall nnn s) := by
  rcases execCall_cases nnn s with ⟨-, he⟩ | ⟨h, sp', -, he⟩ <;> rw [he]
  · exact (keepsAllBut_raiseFatal s _).mono (by simp [instrWrites])
  · exact ((keepsAllBut_stack_sp s _ _).comp (keepsAllBut_setPc _ _)).mono (by simp [instrWrites])

theorem execDrw_frame (x y n : Nibble) (s : State) :
    Completes (KeepsAllBut (instrWrites (.drw x y n)) s) (execDrw x y n s) := by
  refine .ite (fun _ => trivial) fun _ => ?_
  exact (((keepsAllBut_setV s _ _).comp (keepsAllBut_blitRows _ _ _ _)).comp (keepsAllBut_setRedraw _ _)).mono
    (by simp [instrWrites])

theorem execLdVxK_frame (x : Nibble) (s : State) :
    Completes (KeepsAllBut (instrWrites (.ldVxK x)) s) (execLdVxK x s) := by
  rcases execLdVxK_cases x s with ⟨k, -, he⟩ | ⟨-, he⟩ <;> rw [he]
  · exact (keepsAllBut_setV s _ _).mono (by simp [instrWrites])
  · exact (keepsAllBut_setPc s _).mono (by simp [instrWrites])

theorem noteOrSetI_frame (c : Prop) [Decidable c] (s : State) (d : Diag) (w w' : Word) :
    Completes (KeepsAllBut [.i, .outcome] s) (if c then .next ((s.note d).setI w) else .next (s.setI w')) :=
  .ite (fun _ => ((keepsAllBut_note s d).comp (keepsAllBut_setI _ w)).mono (by decide))
    fun _ => (keepsAllBut_setI s w').mono (by decide)

theorem fatalOrWrite_frame (c : Prop) [Decidable c] (p : Part) {s t : State} (k : FatalKind) (h : KeepsAllBut [p] s t) :
    Completes (KeepsAllBut [p, .outcome, .faults] s) (if c then .next (s.raiseFatal k) else .next t) :=
  .ite (fun _ => (keepsAllBut_raiseFatal s k).mono (by simp)) fun _ => h.mono (by simp)

/-- The frame of every instruction: what it writes is in its row of `instrWrites`. -/
theorem exec_frame (i : Instr) (s : State) : Completes (KeepsAllBut (instrWrites i) s) (exec i s) := by
  cases i with
  | cls => exact (keepsAllBut_clearPixels s).comp (keepsAllBut_setRedraw _ _)
  | ret => exact execRet_frame s
  | call nnn => exact execCall_frame nnn s
  | jp | jpV0 => exact keepsAllBut_setPc s _
  | seImm | sneImm | seReg | sneReg => exact keepsAllBut_skipIf s _
  | ldImm | addImm | ldReg | orReg | andReg | xorReg | ldVxDt => exact keepsAllBut_setV s _ _
  | addReg | subReg | shr | subnReg | shl => exact keepsAllBut_flagAlu s _ _ _ _
  | ldI => exact keepsAllBut_setI s _
  | rnd => exact ((keepsAllBut_nextDraw s).comp (keepsAllBut_setV _ _ _)).mono (by simp [instrWrites])
  | drw x y n => exact execDrw_frame x y n s
  | skp | sknp => exact .ite (fun _ => trivial) fun _ => keepsAllBut_skipIf s _
  | ldVxK x => exact execLdVxK_frame x s
  | ldDtVx => exact keepsAllBut_setDt s _
  | ldStVx => exact keepsAllBut_setSt s _
  | addIVx | ldFVx => exact noteOrSetI_frame _ s _ _ _
  | ldBVx => exact .ite (fun _ => trivial) fun _ => keepsAllBut_writeBytes s _ _
  | stRegs => exact fatalOrWrite_frame _ .mem _ (keepsAllBut_writeBytes s _ _)
  | ldRegs => exact fatalOrWrite_frame _ .regs _ (keepsAllBut_writeRegs s _ _)

theorem exec_keepsAllBut {i : Instr} {s t : State} (h : exec i s = .next t) : KeepsAllBut (instrWrites i) s t :=
  (exec_frame i s).of_eq_next h

/-- Settles O7: the frame of every instruction. -/
theorem instructionsWriteOnlyTheirParts : Obligations.InstructionsWriteOnlyTheirParts :=
  fun _ _ _ h => exec_keepsAllBut h

/-! ### The ranges of R33 -/

theorem inv_setPc {s : State} (h : s.Inv) {w : Word} (hw : w.toNat ≤ 0x10FE) : (s.setPc w).Inv := by
  obtain ⟨hi, -, hrest⟩ := h
  exact ⟨hi, hw, hrest⟩

theorem inv_setI {s : State} (h : s.Inv) {w : Word} (hw : w.toNat ≤ 4095) : (s.setI w).Inv := by
  obtain ⟨-, hrest⟩ := h
  exact ⟨hw, hrest⟩

/-- A skip after the fetch advance stays in the range of pc. -/
theorem inv_skipIf {s : State} (h : s.Inv) (hpc : s.pc.toNat ≤ 0x1000) (c : Bool) : (s.skipIf c).Inv := by
  cases c
  · exact h
  · exact inv_setPc h (by rw [BitVec.toNat_add, BitVec.toNat_ofNat]; omega)

theorem inv_flagAlu {s : State} (h : s.Inv) (x y : Nibble) (f r : Byte → Byte → Byte) : (s.flagAlu x y f r).Inv := by
  rw [flagAlu_eq]
  exact h

theorem inv_writeRegs {s : State} (h : s.Inv) (k : Nat) (bs : List Byte) : (s.writeRegs k bs).Inv := by
  rw [writeRegs_eq]
  exact h

theorem inv_blitRows {s : State} (h : s.Inv) (x0 y0 rows : Nat) : (s.blitRows x0 y0 rows).Inv := by
  rw [blitRows_eq]
  exact h

theorem inv_writeBytes {s : State} (h : s.Inv) {a : Nat} {bs : List Byte} (ha : a + bs.length ≤ 4096) :
    (s.writeBytes a bs).Inv := by
  obtain ⟨hi, hpc, hrom, hstack, hmem⟩ := h
  have hmem' : (s.writeBytes a bs).memWf := memWf_writeBytes hmem ha
  rw [writeBytes_eq] at hmem' ⊢
  exact ⟨hi, hpc, hrom, hstack, hmem'⟩

theorem entry_of_stack_set (s : State) (j : Nat) (hj : j < 16) (w : Word) (n : Fin 17) (k : Fin 16) :
    State.entry { s with stack := s.stack.set j w hj, sp := n } k = if j = k.val then w else s.entry k := by
  simp [State.entry, Vector.getElem_set]

/-- A push keeps the ranges when the entry pushed is in range. -/
theorem inv_stack_set {s : State} (h : s.Inv) {j : Nat} (hj : j < 16) {w : Word} (hw : w.toNat ≤ 0x1000)
    (n : Fin 17) :
    State.Inv { s with stack := s.stack.set j w hj, sp := n } := by
  obtain ⟨hi, hpc, hrom, hstack, hmem⟩ := h
  refine ⟨hi, hpc, hrom, fun k => ?_, hmem⟩
  rw [entry_of_stack_set]
  split
  · exact hw
  · exact hstack k

theorem toNat_addrOf (nnn : Addr12) : (addrOf nnn).toNat = nnn.toNat := by
  have := nnn.isLt
  rw [addrOf, BitVec.toNat_setWidth]
  omega

theorem toNat_addrOf_le (nnn : Addr12) : (addrOf nnn).toNat ≤ 4095 := by
  have := nnn.isLt
  rw [toNat_addrOf]
  omega

/-- The largest target of Bnnn is the largest byte plus the largest address (R83). -/
theorem toNat_offsetTarget_le (s : State) (nnn : Addr12) : (s.offsetTarget nnn).toNat ≤ 0x10FE := by
  have hv := (s.v 0x0#4).isLt
  have hn := toNat_addrOf_le nnn
  rw [State.offsetTarget, BitVec.toNat_add, BitVec.toNat_setWidth]
  omega

theorem toNat_glyphAddr_le {d : Byte} (h : d.toNat < 16) : (glyphAddr d).toNat ≤ 4095 := by
  rw [glyphAddr, BitVec.toNat_ofNat]
  refine (Nat.mod_le _ _).trans ?_
  simp only [Config.fontBase, Config.glyphBytes]
  omega

section
variable {s : State} (h : s.Inv) (hpc : s.pc.toNat ≤ 0x1000)
include h

theorem execRet_inv : Completes State.Inv (execRet s) := by
  have ⟨_, _, _, hstack, _⟩ := h
  rcases execRet_cases s with ⟨-, he⟩ | ⟨k, sp', -, -, he⟩ <;> rw [he]
  · exact h
  · have hk := hstack k
    exact inv_setPc (s := { s with sp := sp' }) h (by omega)

theorem execAddIVx_inv (x : Nibble) : Completes State.Inv (execAddIVx x s) := by
  refine .ite (fun _ => inv_setI (s := s.note _) h (by decide)) fun hle => inv_setI h ?_
  rw [BitVec.toNat_ofNat]
  omega

theorem execLdFVx_inv (x : Nibble) : Completes State.Inv (execLdFVx x s) :=
  .ite (fun _ => inv_setI (s := s.note _) h (by decide)) fun hlt =>
    inv_setI h (toNat_glyphAddr_le (Nat.lt_of_not_le hlt))

theorem execLdBVx_inv (x : Nibble) : Completes State.Inv (execLdBVx x s) :=
  .ite (fun _ => trivial) fun hle => inv_writeBytes h <| by
    have hlen : (bcdDigits (s.v x)).length = 3 := rfl
    omega

theorem execStRegs_inv (x : Nibble) : Completes State.Inv (execStRegs x s) :=
  .ite (fun _ => h) fun hle => inv_writeBytes h (by rw [length_lowRegs, blockCount]; omega)

include hpc

theorem execCall_inv (nnn : Addr12) : Completes State.Inv (execCall nnn s) := by
  rcases execCall_cases nnn s with ⟨-, he⟩ | ⟨hlt, sp', -, he⟩ <;> rw [he]
  · exact h
  · exact inv_setPc (inv_stack_set h hlt hpc sp') ((toNat_addrOf_le nnn).trans (by decide))

/-- The rewind of Fx0A takes back the advance of the same cycle, so it does not wrap. -/
theorem execLdVxK_inv (hlo : 2 ≤ s.pc.toNat) (x : Nibble) : Completes State.Inv (execLdVxK x s) := by
  rcases execLdVxK_cases x s with ⟨k, -, he⟩ | ⟨-, he⟩ <;> rw [he]
  · exact h
  · exact inv_setPc h (by rw [BitVec.toNat_sub, BitVec.toNat_ofNat]; omega)

/-- An execute step after the fetch advance of its own cycle keeps the ranges. -/
theorem exec_inv (hlo : 2 ≤ s.pc.toNat) (i : Instr) : Completes State.Inv (exec i s) := by
  cases i with
  | cls | ldImm | addImm | ldReg | orReg | andReg | xorReg | rnd | ldVxDt | ldDtVx | ldStVx => exact h
  | ret => exact execRet_inv h
  | jp nnn => exact inv_setPc h ((toNat_addrOf_le nnn).trans (by decide))
  | call nnn => exact execCall_inv h hpc nnn
  | seImm | sneImm | seReg | sneReg => exact inv_skipIf h hpc _
  | addReg | subReg | shr | subnReg | shl => exact inv_flagAlu h _ _ _ _
  | ldI nnn => exact inv_setI h (toNat_addrOf_le nnn)
  | jpV0 nnn => exact inv_setPc h (toNat_offsetTarget_le s nnn)
  | drw x y n => exact .ite (fun _ => trivial) fun _ => inv_blitRows (s := s.setV _ _) h _ _ _
  | skp | sknp => exact .ite (fun _ => trivial) fun _ => inv_skipIf h hpc _
  | ldVxK x => exact execLdVxK_inv h hpc hlo x
  | addIVx x => exact execAddIVx_inv h x
  | ldFVx x => exact execLdFVx_inv h x
  | ldBVx x => exact execLdBVx_inv h x
  | stRegs x => exact execStRegs_inv h x
  | ldRegs => exact .ite (fun _ => h) fun _ => inv_writeRegs h _ _

end

theorem toNat_advance_pc {s : State} (hf : s.fetchCheck = none) : s.advance.pc.toNat = s.pc.toNat + 2 := by
  obtain ⟨hbound, -⟩ := fetchCheck_eq_none.mp hf
  rw [advance_pc, BitVec.toNat_add, BitVec.toNat_ofNat]
  omega

theorem inv_advance {s : State} (h : s.Inv) (hf : s.fetchCheck = none) :
    s.advance.Inv ∧ 2 ≤ s.advance.pc.toNat ∧ s.advance.pc.toNat ≤ 0x1000 := by
  have hpc := toNat_advance_pc hf
  obtain ⟨hbound, -⟩ := fetchCheck_eq_none.mp hf
  obtain ⟨hi, -, hrest⟩ := h
  exact ⟨⟨hi, by omega, hrest⟩, by omega, by omega⟩

theorem step_inv {s t : State} (h : s.Inv) (hstep : step s = .next t) : t.Inv := by
  rcases step_cases hstep with ⟨k, -, rfl⟩ | ⟨hf, e, ⟨i, -, he⟩, rfl⟩ | ⟨hf, -, rfl⟩
  · exact h
  · obtain ⟨hadv, hlo, hhi⟩ := inv_advance h hf
    have hinv : e.Inv := (exec_inv hadv hhi hlo i).of_eq_next he
    split <;> exact hinv
  · obtain ⟨hadv, -⟩ := inv_advance h hf
    exact hadv

/-- Settles O3: the advance of a cycle whose fetch checks pass stays in range, and every instruction keeps the ranges
from there. -/
theorem everyStepKeepsWellFormedness : Obligations.EveryStepKeepsWellFormedness :=
  fun _ _ h hstep => step_inv h hstep

/-! ### Construction and the host calls -/

theorem construct_entry (cfg : Config) (k : Fin 16) : (State.construct cfg).entry k = 0#16 := by
  simp [State.construct, State.entry]

theorem construct_inv (cfg : Config) : (State.construct cfg).Inv := by
  refine ⟨?_, ?_, ?_, fun k => ?_, List.Pairwise.nil, ?_⟩
  · exact Nat.zero_le _
  · exact (by decide : 0x200 ≤ 0x10FE)
  · exact Nat.zero_le _
  · rw [construct_entry]
    exact Nat.zero_le _
  · exact fun c hc => absurd hc List.not_mem_nil

/-- Settles O2: every field is zero or empty, and pc is the entry point. -/
theorem constructionIsWellFormed : Obligations.ConstructionIsWellFormed := construct_inv

/-- R33 leaves the keypad free. -/
theorem inv_of_keys {s : State} (h : s.Inv) (ks : Vector Bool 16) : State.Inv { s with keys := ks } := h

theorem setKey_inv {s : State} (h : s.Inv) (k : Nat) (p : Bool) : (s.setKey k p).1.Inv := by
  rw [setKey_eq]
  exact inv_of_keys h _

theorem setAllKeys_inv {s : State} (h : s.Inv) (flags : Vector Bool 16) : (s.setAllKeys flags).Inv := by
  rw [setAllKeys_eq]
  exact inv_of_keys h _

theorem loadRom_inv {s : State} (h : s.Inv) (rom : List Byte) : (s.loadRom rom).1.Inv := by
  by_cases hle : rom.length ≤ 3584
  · rw [loadRom_of_le s rom hle]
    obtain ⟨hi, hpc, -, hrest⟩ : (s.writeBytes 0x200 rom).Inv := inv_writeBytes h (by omega)
    exact ⟨hi, hpc, hle, hrest⟩
  · rw [loadRom_of_gt s rom (by omega)]
    exact h

/-- Settles O4: the calls touch the keypad and `redraw`, which R33 leaves free, or load a ROM that fits. -/
theorem hostCallsKeepWellFormedness : Obligations.HostCallsKeepWellFormedness :=
  fun _ h => ⟨setKey_inv h, setAllKeys_inv h, h, loadRom_inv h⟩

theorem hostCall_inv {c : HostCall} {s t : State} (h : s.Inv) (hcall : hostCall c s = .next t) : t.Inv := by
  cases c with
  | runCycle => exact step_inv h hcall
  | setKey k p => cases hcall; exact setKey_inv h k p
  | consumeRedraw | readPixel | readSound => cases hcall; exact h
  | loadRom rom => cases hcall; exact loadRom_inv h rom

theorem reachable_inv {cfg : Config} {s : State} (h : Reachable cfg s) : s.Inv := by
  induction h with
  | construct => exact construct_inv cfg
  | call c _ hcall ih => exact hostCall_inv ih hcall

/-- Settles O5: the ranges hold at construction and every call keeps them; the other ranges are those of the types. -/
theorem everyReachableStateIsWellFormed : Obligations.EveryReachableStateIsWellFormed := by
  intro cfg s hreach
  obtain ⟨hi, hpc, hrom, hstack, -⟩ := reachable_inv hreach
  have byte_le (b : Byte) : b.toNat ≤ 255 := Nat.le_of_lt_succ b.isLt
  exact ⟨hi, Nat.le_of_lt_succ s.sp.isLt, hrom, fun y => byte_le _, byte_le _, byte_le _, fun a => byte_le _, hpc,
    hstack⟩

/-! ### The values after construction -/

theorem resetByte_of_font (font : Vector Byte 80) {k : Nat} (h : k < 80) : resetByte font (0x050 + k) = font[k] := by
  rw [resetByte, dif_pos (by simp only [Config.fontBase, Config.fontLen]; omega)]
  simp

theorem resetByte_of_not_font (font : Vector Byte 80) {a : Nat} (h : a < 0x050 ∨ 0x0A0 ≤ a) :
    resetByte font a = 0#8 :=
  dif_neg fun hin => by simp only [Config.fontBase, Config.fontLen] at hin; omega

theorem construct_readByte (cfg : Config) (a : Nat) : (State.construct cfg).readByte a = resetByte cfg.font a := rfl

theorem construct_v (cfg : Config) (y : Nibble) : (State.construct cfg).v y = 0#8 := by
  simp [State.construct, State.v]

theorem construct_pixel (cfg : Config) (c r : Nat) : (State.construct cfg).pixel c r = false := by
  simp [State.construct, State.pixel]

theorem construct_key (cfg : Config) (k : Nat) : (State.construct cfg).key k = false := by
  simp [State.construct, State.key]

/-- Settles O1: the constructed memory lists no cell, so it reads as the font copy among zeros. -/
theorem constructionGivesTheResetValues : Obligations.ConstructionGivesTheResetValues := by
  rintro cfg s rfl
  simp only [construct_readByte]
  exact ⟨fun a ha => resetByte_of_not_font _ (.inl ha), fun k hk => resetByte_of_font _ hk,
    fun a ha _ => resetByte_of_not_font _ (.inr ha), construct_v cfg, rfl, rfl, construct_entry cfg, rfl, rfl, rfl,
    construct_pixel cfg, construct_key cfg, rfl, rfl⟩

/-! ### The canonical form of memory -/

/-- A memory in canonical form lists an address exactly when it lies in the address space and reads other than the
reset contents. -/
theorem find_eq_of_memWf {s : State} (h : s.memWf) (a : Nat) :
    s.mem.find a =
      if a < 4096 ∧ s.readByte a ≠ resetByte s.config.font a then some (s.readByte a) else none := by
  obtain ⟨-, hcells⟩ := h
  cases hfind : s.mem.find a with
  | none => simp [State.readByte, hfind]
  | some b =>
    obtain ⟨hlt, hne⟩ := hcells _ (Mem.find_isSome_mem hfind)
    simp [State.readByte, hfind, hlt, hne]

/-- Settles O6: the cells a canonical memory lists are determined by what it reads. -/
theorem equalReadsAreEqualMemories : Obligations.EqualReadsAreEqualMemories := by
  intro s t ⟨_, _, _, _, hs⟩ ⟨_, _, _, _, ht⟩ hfont hread
  refine Mem.eq_of_find_eq hs.1 ht.1 fun a => ?_
  rw [find_eq_of_memWf hs, find_eq_of_memWf ht, hfont]
  by_cases ha : a < 4096
  · rw [hread a ha]
  · simp [ha]

/-! ### Registers an instruction writes -/

/-- The instruction may write register `y`: as its destination, as one of the registers a block transfer loads, or as
the flag (R17, R86, R104, R108). -/
def instrWritesReg (y : Nibble) : Instr → Prop
  | .ldImm x _ | .addImm x _ | .ldReg x _ | .orReg x _ | .andReg x _ | .xorReg x _ | .rnd x _ | .ldVxDt x
  | .ldVxK x => y = x
  | .addReg x _ | .subReg x _ | .shr x _ | .subnReg x _ | .shl x _ => y = x ∨ y = Config.vf
  | .drw _ _ _ => y = Config.vf
  | .ldRegs x => y.toNat ≤ x.toNat
  | _ => False

theorem execDrw_keepsReg (x y n : Nibble) (s : State) {z : Nibble} (hz : z ≠ Config.vf) :
    Completes (fun t => t.v z = s.v z) (execDrw x y n s) := by
  refine .ite (fun _ => trivial) fun _ => ?_
  have hclear : (s.setV Config.vf 0#8).v z = s.v z := v_setV_of_ne s _ hz
  exact (v_blitRows _ _ (spriteRow_add_spriteRows_le s y n) z).trans ((if_neg fun h => hz h.1).trans hclear)

theorem execLdVxK_keepsReg (x : Nibble) (s : State) {z : Nibble} (hz : z ≠ x) :
    Completes (fun t => t.v z = s.v z) (execLdVxK x s) := by
  rcases execLdVxK_cases x s with ⟨k, -, he⟩ | ⟨-, he⟩ <;> rw [he]
  · exact v_setV_of_ne s _ hz
  · rfl

theorem execLdRegs_keepsReg (x : Nibble) (s : State) {z : Nibble} (hz : x.toNat < z.toNat) :
    Completes (fun t => t.v z = s.v z) (execLdRegs x s) := by
  refine .ite (fun _ => rfl) fun _ => ?_
  have hx := x.isLt
  have hlen : (s.readBytes s.indexAddr (blockCount x)).length = x.toNat + 1 := length_readBytes _ _ _
  exact (v_writeRegs s 0 _ (by omega) z).trans (if_neg (by omega))

theorem exec_keepsReg {z : Nibble} {i : Instr} (hz : ¬instrWritesReg z i) (s : State) :
    Completes (fun t => t.v z = s.v z) (exec i s) := by
  cases i with
  | ldImm | addImm | ldReg | orReg | andReg | xorReg | ldVxDt => exact v_setV_of_ne s _ hz
  | rnd => exact v_setV_of_ne s.nextDraw _ hz
  | addReg | subReg | shr | subnReg | shl =>
    exact v_flagAlu_of_ne s _ _ _ _ (fun h => hz (.inl h)) (fun h => hz (.inr h))
  | drw x y n => exact execDrw_keepsReg x y n s hz
  | ldVxK x => exact execLdVxK_keepsReg x s hz
  | ldRegs x => exact execLdRegs_keepsReg x s (Nat.lt_of_not_le hz)
  | _ => exact (exec_frame _ s).mono fun t h => h .regs (by simp [instrWrites]) z

/-- Settles O9: an instruction that writes VF writes flags or has VF as a destination. -/
theorem onlyFlagWritersAndDestinationsChangeVF : Obligations.OnlyFlagWritersAndDestinationsChangeVF := by
  intro i s t hexec hne
  have hwrites : instrWritesReg 0xF#4 i := by
    by_contra hn
    exact hne ((exec_keepsReg hn s).of_eq_next hexec)
  cases i with
  | ldImm | addImm | ldReg | orReg | andReg | xorReg | rnd | ldVxDt | ldVxK =>
    obtain rfl : 0xF#4 = _ := hwrites
    simp
  | addReg | subReg | shr | subnReg | shl | drw => simp
  | ldRegs x =>
    have hle : 15 ≤ x.toNat := hwrites
    obtain rfl : x = 0xF#4 := BitVec.eq_of_toNat_eq (by rw [BitVec.toNat_ofNat]; omega)
    simp
  | _ => exact False.elim hwrites

/-! ### The host's side of the state

ST, `redraw`, L and the keypad are what the host reads or writes between cycles. The execute step runs the same
whatever they hold; so a run with other values there is the first run, with other values there. -/

/-- The state with its host's side replaced. -/
def State.withHost (s : State) (st : Byte) (redraw : Bool) (romSize : Nat) (keys : Vector Bool 16) : State :=
  { s with st := st, redraw := redraw, romSize := romSize, keys := keys }

/-- Change the state in which a completed step ends. -/
def mapNext (f : State → State) : Host.Outcome State Fault Refusal → Host.Outcome State Fault Refusal
  | .next t => .next (f t)
  | .fault e => .fault e
  | .refused e => .refused e

theorem ite_eq_mapNext {f : State → State} {c : Prop} [Decidable c] {o o' p p' : Host.Outcome State Fault Refusal}
    (h : o = mapNext f p) (h' : o' = mapNext f p') : (if c then o else o') = mapNext f (if c then p else p') := by
  split
  · exact h
  · exact h'

/-- The instructions that read the keypad (R25, R132). -/
def instrReadsKeys : Instr → Prop
  | .skp _ | .sknp _ | .ldVxK _ => True
  | _ => False

/-- ST after an execute step from `s` that found it at `st`: Fx18 writes it (R23). -/
def stAfter (s : State) (st : Byte) : Instr → Byte
  | .ldStVx x => s.v x
  | _ => st

/-- `redraw` after an execute step that found it at `b`: 00E0 and Dxyn set it (R28). -/
def redrawAfter (b : Bool) : Instr → Bool
  | .cls | .drw _ _ _ => true
  | _ => b

section
variable (s : State) (st : Byte) (redraw : Bool) (l : Nat) (ks : Vector Bool 16)

theorem skipIf_withHost (c : Bool) : (s.withHost st redraw l ks).skipIf c = (s.skipIf c).withHost st redraw l ks := by
  cases c <;> rfl

theorem flagAlu_withHost (x y : Nibble) (f r : Byte → Byte → Byte) :
    (s.withHost st redraw l ks).flagAlu x y f r = (s.flagAlu x y f r).withHost st redraw l ks := by
  have hconfig : (s.withHost st redraw l ks).config = s.config := rfl
  unfold State.flagAlu
  rw [hconfig]
  cases s.config.aluSelfRef <;> rfl

theorem writeBytes_withHost (a : Nat) (bs : List Byte) :
    (s.withHost st redraw l ks).writeBytes a bs = (s.writeBytes a bs).withHost st redraw l ks := by
  induction bs generalizing s a with
  | nil => rfl
  | cons b bs ih => exact ih (s.writeByte a b) (a + 1)

theorem writeRegs_withHost (k : Nat) (bs : List Byte) :
    (s.withHost st redraw l ks).writeRegs k bs = (s.writeRegs k bs).withHost st redraw l ks := by
  induction bs generalizing s k with
  | nil => rfl
  | cons b bs ih => exact ih (s.setV (BitVec.ofNat 4 k) b) (k + 1)

theorem readBytes_withHost (a n : Nat) : (s.withHost st redraw l ks).readBytes a n = s.readBytes a n := by
  induction n generalizing a with
  | zero => rfl
  | succ n ih => exact congrArg (s.readByte a :: ·) (ih (a + 1))

theorem setPixel_withHost (c r : Nat) (p : Bool) :
    (s.withHost st redraw l ks).setPixel c r p = (s.setPixel c r p).withHost st redraw l ks := by
  unfold State.setPixel
  split <;> rfl

theorem blitPixel_withHost (col row : Nat) (bit : Bool) :
    (s.withHost st redraw l ks).blitPixel col row bit = (s.blitPixel col row bit).withHost st redraw l ks := by
  have hpixel : (s.withHost st redraw l ks).pixel col row = s.pixel col row := rfl
  unfold State.blitPixel
  rw [hpixel]
  cases bit && s.pixel col row
  · exact setPixel_withHost s st redraw l ks _ _ _
  · exact setPixel_withHost (s.setV _ _) st redraw l ks _ _ _

theorem blitRow_withHost (x0 row : Nat) (b : Byte) :
    (s.withHost st redraw l ks).blitRow x0 row b = (s.blitRow x0 row b).withHost st redraw l ks := by
  unfold State.blitRow
  exact List.foldl_hom (fun t : State => t.withHost st redraw l ks) fun t _ => blitPixel_withHost t st redraw l ks _ _ _

theorem blitRows_withHost (x0 y0 rows : Nat) :
    (s.withHost st redraw l ks).blitRows x0 y0 rows = (s.blitRows x0 y0 rows).withHost st redraw l ks := by
  unfold State.blitRows
  exact List.foldl_hom (fun t : State => t.withHost st redraw l ks) fun t _ => blitRow_withHost t st redraw l ks _ _ _

theorem execRet_withHost :
    execRet (s.withHost st redraw l ks) = mapNext (·.withHost st redraw l ks) (execRet s) := by
  unfold execRet
  by_cases h : s.sp.val = 0
  · rw [pop_of_empty s h, pop_of_empty (s.withHost st redraw l ks) h]
    rfl
  · rw [pop_of_pos s h, pop_of_pos (s.withHost st redraw l ks) h]
    rfl

theorem execCall_withHost (nnn : Addr12) :
    execCall nnn (s.withHost st redraw l ks) = mapNext (·.withHost st redraw l ks) (execCall nnn s) := by
  unfold execCall
  by_cases h : s.sp.val < 16
  · rw [push_of_lt s _ h, push_of_lt (s.withHost st redraw l ks) _ h]
    rfl
  · have hfull : s.sp.val = 16 := by omega
    rw [push_of_full s _ hfull, push_of_full (s.withHost st redraw l ks) _ hfull]
    rfl

theorem execLdVxK_withHost (x : Nibble) :
    execLdVxK x (s.withHost st redraw l s.keys) = mapNext (·.withHost st redraw l s.keys) (execLdVxK x s) := by
  have hfirst : (s.withHost st redraw l s.keys).firstKey = s.firstKey := rfl
  unfold execLdVxK
  rw [hfirst]
  cases s.firstKey <;> rfl

/-- The execute step on another host's side: the same outcome, with that host's side but for what the instruction itself
sets; an instruction that reads the keypad needs the keypad left as it is. -/
theorem exec_withHost (i : Instr) (hk : instrReadsKeys i → ks = s.keys) :
    exec i (s.withHost st redraw l ks) =
      mapNext (·.withHost (stAfter s st i) (redrawAfter redraw i) l ks) (exec i s) := by
  cases i with
  | cls | jp | jpV0 | ldImm | addImm | ldReg | orReg | andReg | xorReg | ldI | rnd | ldVxDt | ldDtVx | ldStVx => rfl
  | ret => exact execRet_withHost s st redraw l ks
  | call nnn => exact execCall_withHost s st redraw l ks nnn
  | seImm | sneImm | seReg | sneReg => exact congrArg _ (skipIf_withHost s st redraw l ks _)
  | addReg | subReg | shr | subnReg | shl => exact congrArg _ (flagAlu_withHost s st redraw l ks _ _ _ _)
  | drw x y n =>
    exact ite_eq_mapNext rfl (congrArg (Host.Outcome.next <| State.setRedraw · true)
      (blitRows_withHost (s.setV Config.vf 0#8) st redraw l ks _ _ _))
  | skp | sknp =>
    obtain rfl := hk trivial
    exact ite_eq_mapNext rfl (congrArg _ (skipIf_withHost s st redraw l _ _))
  | ldVxK x =>
    obtain rfl := hk trivial
    exact execLdVxK_withHost s st redraw l x
  | addIVx | ldFVx => exact ite_eq_mapNext rfl rfl
  | ldBVx | stRegs => exact ite_eq_mapNext rfl (congrArg _ (writeBytes_withHost s st redraw l ks _ _))
  | ldRegs x =>
    refine ite_eq_mapNext rfl (congrArg _ ?_)
    exact (congrArg _ (readBytes_withHost s st redraw l ks _ _)).trans (writeRegs_withHost s st redraw l ks _ _)

end

/-- The host's side after an execute step: the step that puts the host's side back as it was is the step itself. -/
theorem exec_host {i : Instr} {s t : State} (h : exec i s = .next t) :
    t.st = stAfter s s.st i ∧ t.redraw = redrawAfter s.redraw i ∧ t.romSize = s.romSize ∧ t.keys = s.keys := by
  have hself := exec_withHost s s.st s.redraw s.romSize s.keys i fun _ => rfl
  have hsame : s.withHost s.st s.redraw s.romSize s.keys = s := rfl
  rw [hsame, h] at hself
  have heq : t = t.withHost _ _ _ _ := Host.Outcome.next.inj hself
  rw [heq]
  exact ⟨rfl, rfl, rfl, rfl⟩

theorem keepsAllBut_withHost_outputs {t : State} {ks : Vector Bool 16} (hkeys : t.keys = ks) (st : Byte)
    (redraw : Bool) (l : Nat) : KeepsAllBut [.st, .redraw, .romSize] t (t.withHost st redraw l ks) := by
  subst hkeys
  intro p hp
  cases p with
  | st | redraw | romSize => simp at hp
  | mem | regs | stack | keys => exact fun _ => rfl
  | fb => exact fun _ _ => rfl
  | _ => rfl

theorem keepsAllBut_withHost_keys {t : State} {st : Byte} {redraw : Bool} {l : Nat} (hst : t.st = st)
    (hredraw : t.redraw = redraw) (hrom : t.romSize = l) (ks : Vector Bool 16) :
    KeepsAllBut [.keys] t (t.withHost st redraw l ks) := by
  subst hst hredraw hrom
  intro p hp
  cases p with
  | keys => simp at hp
  | mem | regs | stack => exact fun _ => rfl
  | fb => exact fun _ _ => rfl
  | _ => rfl

/-- Settles O10: the run with other values of ST, `redraw` and L is the first run with other values there. -/
theorem programsCannotReadHostOutputs : Obligations.ProgramsCannotReadHostOutputs := by
  intro i s b r l
  have hrun := exec_withHost s b r l s.keys i fun _ => rfl
  constructor
  · intro t ht
    obtain ⟨-, -, -, hkeys⟩ := exec_host ht
    rw [ht] at hrun
    exact ⟨_, hrun, keepsAllBut_withHost_outputs hkeys _ _ _⟩
  · intro f hf
    rw [hf] at hrun
    exact hrun

/-- Settles O11: the run with another keypad is the first run with that keypad. -/
theorem onlyKeyInstructionsReadKeys : Obligations.OnlyKeyInstructionsReadKeys := by
  intro i s ks hi
  have hnot : ¬instrReadsKeys i := by
    cases i with
    | skp x | sknp x | ldVxK x => simp at hi
    | _ => exact id
  have hrun := exec_withHost s s.st s.redraw s.romSize ks i fun h => absurd h hnot
  constructor
  · intro t ht
    obtain ⟨hst, hredraw, hrom, -⟩ := exec_host ht
    rw [ht] at hrun
    exact ⟨_, hrun, keepsAllBut_withHost_keys hst hredraw hrom ks⟩
  · intro f hf
    rw [hf] at hrun
    exact hrun

/-! ### What a cycle leaves to the host -/

theorem config_not_mem_instrWrites (i : Instr) : Part.config ∉ instrWrites i := by
  cases i <;> simp [instrWrites]

theorem execRet_faults (s : State) :
    Completes (fun t => t.faults = s.faults ∨ ∃ k, t = s.raiseFatal k) (execRet s) := by
  rcases execRet_cases s with ⟨-, he⟩ | ⟨k, sp', -, -, he⟩ <;> rw [he]
  · exact .inr ⟨_, rfl⟩
  · exact .inl rfl

theorem execCall_faults (nnn : Addr12) (s : State) :
    Completes (fun t => t.faults = s.faults ∨ ∃ k, t = s.raiseFatal k) (execCall nnn s) := by
  rcases execCall_cases nnn s with ⟨-, he⟩ | ⟨h, sp', -, he⟩ <;> rw [he]
  · exact .inr ⟨_, rfl⟩
  · exact .inl rfl

/-- An execute step that writes the sticky record raised a fatal condition and did nothing else (R69, D2). -/
theorem exec_faults (i : Instr) (s : State) :
    Completes (fun t => t.faults = s.faults ∨ ∃ k, t = s.raiseFatal k) (exec i s) := by
  cases i with
  | ret => exact execRet_faults s
  | call nnn => exact execCall_faults nnn s
  | stRegs => exact .ite (fun _ => .inr ⟨_, rfl⟩) fun _ => .inl (keepsAllBut_writeBytes s _ _ .faults (by decide))
  | ldRegs => exact .ite (fun _ => .inr ⟨_, rfl⟩) fun _ => .inl (keepsAllBut_writeRegs s _ _ .faults (by decide))
  | _ => exact (exec_frame _ s).mono fun t h => .inl (h .faults (by simp [instrWrites]))

/-- The keypad, L and the parameters stay, `redraw` is not cleared, and the sticky record grows by at most one entry. -/
structure LeavesHost (s t : State) : Prop where
  keys : t.keys = s.keys
  romSize : t.romSize = s.romSize
  config : t.config = s.config
  redraw : s.redraw = true → t.redraw = true
  faults : ∃ l, t.faults = s.faults ++ l ∧ l.length ≤ 1

theorem redrawAfter_true (i : Instr) : redrawAfter true i = true := by
  cases i <;> rfl

theorem exec_leavesHost {i : Instr} {s t : State} (h : exec i s = .next t) : LeavesHost s t := by
  obtain ⟨-, hredraw, hrom, hkeys⟩ := exec_host h
  refine ⟨hkeys, hrom, exec_keepsAllBut h .config (config_not_mem_instrWrites i), fun hset => ?_, ?_⟩
  · rw [hredraw, hset, redrawAfter_true]
  · rcases (exec_faults i s).of_eq_next h with hsame | ⟨k, rfl⟩
    · exact ⟨[], by rw [hsame, List.append_nil], Nat.zero_le _⟩
    · exact ⟨[k], rfl, le_rfl⟩

theorem step_leavesHost {s t : State} (h : step s = .next t) : LeavesHost s t := by
  rcases step_cases h with ⟨k, -, rfl⟩ | ⟨-, e, ⟨i, -, he⟩, rfl⟩ | ⟨-, -, rfl⟩
  · exact ⟨rfl, rfl, rfl, id, [k], rfl, le_rfl⟩
  · obtain ⟨hkeys, hrom, hconfig, hredraw, hfaults⟩ := exec_leavesHost he
    split <;> exact ⟨hkeys, hrom, hconfig, hredraw, hfaults⟩
  · exact ⟨rfl, rfl, rfl, id, [], (List.append_nil _).symm, Nat.zero_le _⟩

theorem key_eq_of_keys {s t : State} (h : t.keys = s.keys) (k : Nat) : t.key k = s.key k := by
  simp only [State.key, h]

/-- Settles O8: neither the execute step nor the rest of a cycle touches them. -/
theorem stepLeavesTheHostsStateAlone : Obligations.StepLeavesTheHostsStateAlone := by
  intro s t h
  obtain ⟨hkeys, hrom, hconfig, hredraw, hfaults⟩ := step_leavesHost h
  exact ⟨key_eq_of_keys hkeys, hrom, hconfig, hredraw, hfaults⟩

end Sys2Proof.Machine
end

section
/-! Proofs about code in memory: bytes written at ascending addresses are the words a fetch reads from them
(spec/20_memory.md R35, R47). -/

namespace Sys2Proof.Machine

/-! ### Fetching from a written block -/

/-- A memory that reads like a written block is fetched as the block's bytes, the lower address first (R35). -/
theorem fetchWord_of_samePart_writeBytes {s t : State} {a k : Nat} {bs : List Byte} (hmem : s.memWf)
    (ha : a + bs.length ≤ 4096) (hsame : SamePart .mem (s.writeBytes a bs) t) (hpc : t.pc.toNat = a + k)
    (hk : k + 1 < bs.length) : t.fetchWord = wordOfBytes (bs.getD k 0#8) (bs.getD (k + 1) 0#8) := by
  have hread (j : Nat) (hj : j < bs.length) : t.readByte (a + j) = bs.getD j 0#8 := by
    rw [hsame, readByte_writeBytes hmem ha, if_pos (by omega), Nat.add_sub_cancel_left]
  rw [State.fetchWord, hpc, hread k (by omega), Nat.add_assoc, hread (k + 1) hk]

/-! ### A block store (R103) -/

theorem exec_stRegs_of_le {s : State} {x : Nibble} (h : s.indexAddr + x.toNat ≤ 4095) :
    exec (.stRegs x) s = .next (s.writeBytes s.indexAddr (s.lowRegs (blockCount x))) :=
  if_neg (Nat.not_lt.mpr h)

theorem getD_lowRegs_toNat (s : State) {n : Nat} (y : Nibble) (h : y.toNat < n) :
    (s.lowRegs n).getD y.toNat 0#8 = s.v y := by
  rw [getD_lowRegs s n _ h, BitVec.ofNat_toNat, BitVec.setWidth_eq]

/-- Settles O47: the block holds V0 to Vx in order, so the word k bytes into it is Vk and the next register. -/
theorem storedBytesAreFetched : Obligations.StoredBytesAreFetched := by
  intro s x k k' hinv hle hk' hx
  obtain ⟨-, -, -, -, hmem⟩ := hinv
  refine ⟨_, exec_stRegs_of_le hle, fun t' hsame hpc => ?_⟩
  have hlen : (s.lowRegs (blockCount x)).length = x.toNat + 1 := length_lowRegs _ _
  have hcount : blockCount x = x.toNat + 1 := rfl
  rw [fetchWord_of_samePart_writeBytes hmem (by omega) hsame hpc (by omega), ← hk',
    getD_lowRegs_toNat s k (by omega), getD_lowRegs_toNat s k' (by omega), toNat_wordOfBytes]

/-! ### The placed word

`placeWord` moves pc into memory, stores the word at pc, and takes the word into the ROM; each move does nothing where
it is not needed. -/

/-- pc put at the entry point where no word can be fetched at it (R62). -/
def State.pcInMemory (s : State) : State := if s.pc.toNat + 1 > 4095 then s.setPc 0x200#16 else s

/-- L raised to take in the word at pc where the fetch checks would stop it (R63). -/
def State.admitWord (s : State) : State :=
  if s.fetchCheck = none then s else { s with romSize := s.pc.toNat + 2 - Config.programStart }

theorem placeWord_eq (s : State) (nbits w : Nat) :
    s.placeWord nbits w =
      (s.pcInMemory.writeBytes s.pcInMemory.pc.toNat (tableWordBytes nbits w)).admitWord := rfl

theorem toNat_pcInMemory_pc_le (s : State) : s.pcInMemory.pc.toNat + 1 ≤ 4095 := by
  unfold State.pcInMemory
  split
  · rw [setPc_pc, BitVec.toNat_ofNat]
    omega
  · omega

theorem pcInMemory_inv {s : State} (h : s.Inv) : s.pcInMemory.Inv := by
  unfold State.pcInMemory
  split
  · exact inv_setPc h (by decide)
  · exact h

theorem inv_of_romSize {s : State} (h : s.Inv) {l : Nat} (hl : l ≤ 3584) : State.Inv { s with romSize := l } := by
  obtain ⟨hi, hpc, -, hrest⟩ := h
  exact ⟨hi, hpc, hl, hrest⟩

theorem readByte_of_romSize (s : State) (l a : Nat) : State.readByte { s with romSize := l } a = s.readByte a := rfl

@[simp] theorem admitWord_pc (s : State) : s.admitWord.pc = s.pc := by
  unfold State.admitWord
  split <;> rfl

theorem samePart_mem_admitWord (s : State) : SamePart .mem s s.admitWord := by
  unfold State.admitWord
  split
  · exact fun _ => rfl
  · exact readByte_of_romSize s _

/-- A word that ends in memory ends at most 3584 bytes past 0x200, so L stays in its range. -/
theorem admitWord_inv {s : State} (h : s.Inv) (hpc : s.pc.toNat + 1 ≤ 4095) : s.admitWord.Inv := by
  unfold State.admitWord
  split
  · exact h
  · have hrom : s.pc.toNat + 2 - 512 ≤ 3584 := by omega
    exact inv_of_romSize h hrom

/-- The only check that can stop a fetch inside memory is the ROM end, which the raised L passes. -/
theorem fetchCheck_admitWord {s : State} (hpc : s.pc.toNat + 1 ≤ 4095) : s.admitWord.fetchCheck = none := by
  unfold State.admitWord
  split
  · assumption
  · have hrom : s.pc.toNat < 512 + (s.pc.toNat + 2 - 512) := by omega
    exact fetchCheck_eq_none.mpr ⟨hpc, fun _ => hrom⟩

theorem tableWordBytes_toNat (w : Word) :
    tableWordBytes 16 w.toNat = [BitVec.ofNat 8 (w.toNat / 256), BitVec.ofNat 8 w.toNat] := by
  rw [tableWordBytes, Nat.mod_eq_of_lt w.isLt]

theorem wordOfBytes_ofNat (w : Word) :
    wordOfBytes (BitVec.ofNat 8 (w.toNat / 256)) (BitVec.ofNat 8 w.toNat) = w := by
  have hw := w.isLt
  apply BitVec.eq_of_toNat_eq
  rw [toNat_wordOfBytes, BitVec.toNat_ofNat, BitVec.toNat_ofNat]
  omega

/-- Placing a word leaves a well-formed state whose fetch passes its checks and reads that word. -/
theorem placeWord_fetches {s : State} (h : s.Inv) (w : Word) :
    (s.placeWord 16 w.toNat).Inv ∧ (s.placeWord 16 w.toNat).fetchCheck = none ∧
      (s.placeWord 16 w.toNat).fetchWord = w := by
  rw [placeWord_eq, tableWordBytes_toNat]
  have hle := toNat_pcInMemory_pc_le s
  have hinv := pcInMemory_inv h
  generalize s.pcInMemory = u at hle hinv ⊢
  obtain ⟨-, -, -, -, hmem⟩ := id hinv
  generalize hbs : [BitVec.ofNat 8 (w.toNat / 256), BitVec.ofNat 8 w.toNat] = bs
  have hlen : bs.length = 2 := by rw [← hbs]; rfl
  have hpc : (u.writeBytes u.pc.toNat bs).pc = u.pc := keepsAllBut_writeBytes u _ _ .pc (by decide)
  have hfit : u.pc.toNat + bs.length ≤ 4096 := by omega
  refine ⟨admitWord_inv (inv_writeBytes hinv hfit) (by rwa [hpc]), fetchCheck_admitWord (by rwa [hpc]), ?_⟩
  rw [fetchWord_of_samePart_writeBytes (k := 0) hmem hfit (samePart_mem_admitWord _)
    (by rw [admitWord_pc, hpc, Nat.add_zero]) (by omega), ← hbs]
  exact wordOfBytes_ofNat w

/-- Settles O24: the placed word is fetched, and the decoder reads the instruction back from its encoding. -/
theorem placedWordIsTheNextInstruction : Obligations.PlacedWordIsTheNextInstruction := by
  intro s i hinv
  obtain ⟨hp, hcheck, hword⟩ := placeWord_fetches hinv (encode i)
  exact ⟨_, rfl, hp, step_of_decode hcheck ((congrArg decode hword).trans (decode_encode i))⟩

end Sys2Proof.Machine
end

section
/-! Proofs about the encoding (spec/30_encoding.md R50 to R60): the round trips between words and instructions, the
words of the opcode table as bytes, and the cycle of a word that no row of the opcode map matches. -/

namespace Sys2Proof.Machine

/-! ### Words and instructions -/

/-- Reading a word's two bytes as the opcode table numbers its bits is decoding the word. -/
theorem decodeTableWord_toNat (w : Word) : decodeTableWord 16 w.toNat = (decode w).toOption := by
  rw [decodeTableWord, tableWordBytes_toNat, decodeBytes, wordOfBytes_ofNat]
  cases decode w <;> rfl

/-- Settles O14: the decoder inverts the encoder, and a word's two bytes decode as the word. -/
theorem decodeOfEncodeIsTheInstruction : Obligations.DecodeOfEncodeIsTheInstruction := by
  intro i
  refine ⟨decode_encode i, ?_⟩
  rw [decodeTableWord_toNat, decode_encode]
  rfl

/-- Settles O15: an answer of the decoder fits its word. -/
theorem encodeOfDecodeIsTheWord : Obligations.EncodeOfDecodeIsTheWord :=
  fun _ _ => encode_eq_of_decode_eq_ok

/-- Settles O17: the first six words are encoded instructions, and no row of the opcode map matches the last three. -/
theorem sampleWordsDecode : Obligations.SampleWordsDecode :=
  ⟨decode_encode .cls, decode_encode (.jp 0x234#12), decode_encode (.shr 0x2#4 0x3#4),
    decode_encode (.drw 0x1#4 0x2#4 0x5#4), decode_encode (.skp 0x1#4), decode_encode (.ldRegs 0x2#4),
    decode_eq_unknownOpcode_of_not_wellFormed (by decide), decode_eq_unknownOpcode_of_not_wellFormed (by decide),
    decode_eq_unknownOpcode_of_not_wellFormed (by decide)⟩

/-! ### The cycle of an unknown opcode (R59) -/

/-- When the checks pass and the word does not decode, the step notes the unknown opcode after the advance and ticks. -/
theorem step_of_decode_error {s : State} {e : DecodeReject} (hf : s.fetchCheck = none)
    (hd : decode s.fetchWord = .error e) : step s = .next (s.advance.note .unknownOpcode).tick := by
  simp only [step, hf, hd]
  rfl

theorem keepsAllBut_unknownOpcode (s : State) :
    KeepsAllBut [.pc, .dt, .st, .outcome] s (s.advance.note .unknownOpcode).tick :=
  (((keepsAllBut_advance s).comp (keepsAllBut_note _ _)).comp (keepsAllBut_tick _)).mono (by decide)

/-- Settles O21: a word in no row does not decode, so the cycle is the advance, the note and the tick. -/
theorem unknownOpcodeOnlyAdvancesAndTicks : Obligations.UnknownOpcodeOnlyAdvancesAndTicks := by
  intro s hbound hrom hword
  have hf : s.fetchCheck = none := fetchCheck_eq_none.mpr ⟨hbound, hrom⟩
  exact ⟨_, step_of_decode_error hf (decode_eq_unknownOpcode_of_not_wellFormed hword), keepsAllBut_unknownOpcode s,
    toNat_advance_pc hf, toNat_tickDown s.dt, toNat_tickDown s.st, rfl⟩

end Sys2Proof.Machine
end

section
/-! Proofs about the cycle (spec/40_cycle.md R62 to R73): how it is composed, the three ways it ends, and what each way
leaves of the state and the timers. -/

namespace Sys2Proof.Machine

/-! ### The fatal conditions of the execute step (R124) -/

/-- The fatal condition an instruction finds in the state it executes in, as `State.fetchCheck` is for the fetch: a full
stack at 2nnn (R78), an empty one at 00EE (R76), a block past memory at Fx55 and Fx65 (R103, R104). -/
def State.execCheck (s : State) (i : Instr) : Option FatalKind :=
  match i with
  | .call _ => if s.sp.val = 16 then some .stackOverflow else none
  | .ret => if s.sp.val = 0 then some .stackUnderflow else none
  | .stRegs x | .ldRegs x => if s.indexAddr + x.toNat > 4095 then some .blockTransferOutOfRange else none
  | _ => none

theorem execCheck_kinds {i : Instr} {s : State} {k : FatalKind} (h : s.execCheck i = some k) :
    k = .stackOverflow ∨ k = .stackUnderflow ∨ k = .blockTransferOutOfRange := by
  cases i with
  | call | ret | stRegs | ldRegs =>
    obtain ⟨-, ⟨⟩⟩ := Option.ite_none_right_eq_some.mp h
    simp
  | _ => simp [State.execCheck] at h

/-- An instruction that finds a fatal condition raises it and does nothing else (R69, R128). -/
theorem exec_of_execCheck_eq_some {i : Instr} {s : State} {k : FatalKind} (h : s.execCheck i = some k) :
    exec i s = .next (s.raiseFatal k) := by
  cases i with
  | call nnn =>
    obtain ⟨hfull, ⟨⟩⟩ := Option.ite_none_right_eq_some.mp h
    rcases execCall_cases nnn s with ⟨-, he⟩ | ⟨hlt, -⟩
    · exact he
    · omega
  | ret =>
    obtain ⟨hempty, ⟨⟩⟩ := Option.ite_none_right_eq_some.mp h
    rcases execRet_cases s with ⟨-, he⟩ | ⟨j, -, hj, -⟩
    · exact he
    · omega
  | stRegs x | ldRegs x =>
    obtain ⟨hpast, ⟨⟩⟩ := Option.ite_none_right_eq_some.mp h
    exact if_pos hpast
  | _ => simp [State.execCheck] at h

@[simp] theorem note_isFatal (s : State) (d : Diag) : (s.note d).outcome.isFatal = s.outcome.isFatal := by
  unfold State.note
  cases s.outcome <;> rfl

/-- An instruction that finds no fatal condition does not make the report fatal: it leaves the report alone or notes a
locally recovered condition (R70). -/
theorem exec_of_execCheck_eq_none {i : Instr} {s : State} (h : s.execCheck i = none) :
    Completes (fun t => t.outcome.isFatal = s.outcome.isFatal) (exec i s) := by
  cases i with
  | call nnn =>
    rcases execCall_cases nnn s with ⟨hfull, -⟩ | ⟨_, _, -, he⟩
    · simp [State.execCheck, hfull] at h
    · rw [exec, he]
      rfl
  | ret =>
    rcases execRet_cases s with ⟨hempty, -⟩ | ⟨_, _, -, -, he⟩
    · simp [State.execCheck, hempty] at h
    · rw [exec, he]
      rfl
  | stRegs =>
    exact .ite (fun hpast => by simp [State.execCheck, hpast] at h) fun _ =>
      congrArg _ (keepsAllBut_writeBytes s _ _ .outcome (by decide))
  | ldRegs =>
    exact .ite (fun hpast => by simp [State.execCheck, hpast] at h) fun _ =>
      congrArg _ (keepsAllBut_writeRegs s _ _ .outcome (by decide))
  | addIVx | ldFVx => exact .ite (fun _ => note_isFatal s _) fun _ => rfl
  | _ => exact (exec_frame _ s).mono fun t hkeeps => congrArg _ (hkeeps .outcome (by simp [instrWrites]))

/-! ### The ends of a cycle -/

/-- A cycle whose fetch checks find a fatal condition raises it and does nothing else (R62, R63). -/
theorem step_of_fetchCheck_eq_some {s : State} {k : FatalKind} (h : s.fetchCheck = some k) :
    step s = .next (s.raiseFatal k) := by
  simp only [step, h]

/-- The end of the cycle leaves the report of the execute step as it is, with or without the tick. -/
theorem outcome_ite_tick (c : Prop) [Decidable c] (e : State) : (if c then e else e.tick).outcome = e.outcome := by
  split <;> rfl

/-- A cycle that ends fatally found a fatal condition at its fetch, or in its execute step after the advance; it raised
that condition and did nothing else (R69). -/
theorem step_fatal_cases {s t : State} {k : FatalKind} (h : step s = .next t) (hk : t.outcome = .fatal k) :
    (s.fetchCheck = some k ∧ t = s.raiseFatal k) ∨
      (s.fetchCheck = none ∧ ∃ i, decode s.fetchWord = .ok i ∧ s.advance.execCheck i = some k ∧
        t = s.advance.raiseFatal k) := by
  rcases step_cases h with ⟨k', hf, rfl⟩ | ⟨hf, e, ⟨i, hd, he⟩, rfl⟩ | ⟨-, -, rfl⟩
  · obtain rfl : k' = k := CycleOutcome.fatal.inj hk
    exact .inl ⟨hf, rfl⟩
  · rw [outcome_ite_tick] at hk
    cases hc : s.advance.execCheck i with
    | none =>
      have hok : e.outcome.isFatal = false := (exec_of_execCheck_eq_none hc).of_eq_next he
      rw [hk] at hok
      cases hok
    | some k' =>
      obtain rfl : s.advance.raiseFatal k' = e :=
        Host.Outcome.next.inj ((exec_of_execCheck_eq_some hc).symm.trans he)
      obtain rfl : k' = k := CycleOutcome.fatal.inj hk
      exact .inr ⟨hf, i, hd, hc, rfl⟩
  · cases hk

/-- A cycle that does not end fatally ticks after its execute step (R67). -/
theorem step_completed_cases {s t : State} (h : step s = .next t) (hok : t.outcome.isFatal = false) :
    (∃ i e, decode s.fetchWord = .ok i ∧ exec i s.advance = .next e ∧ t = e.tick) ∨
      ((∃ r, decode s.fetchWord = .error r) ∧ t = (s.advance.note .unknownOpcode).tick) := by
  rcases step_cases h with ⟨k, -, rfl⟩ | ⟨-, e, ⟨i, hd, he⟩, rfl⟩ | ⟨-, hd, rfl⟩
  · cases hok
  · rw [outcome_ite_tick] at hok
    exact .inl ⟨i, e, hd, he, if_neg (by simp [hok])⟩
  · exact .inr ⟨hd, rfl⟩

/-- Settles O18: the conditions on pc are the checks of the fetch, and the step is then the end of the cycle after the
execute step. -/
theorem stepRunsTheDecodedInstruction : Obligations.StepRunsTheDecodedInstruction := by
  intro s i hbound hrom hd
  have hstep : step s = finishCycle (exec i s.advance) := step_of_decode (fetchCheck_eq_none.mpr ⟨hbound, hrom⟩) hd
  refine ⟨fun t ht hok => ⟨t.tick, ?_, keepsAllBut_tick t, toNat_tickDown t.dt, toNat_tickDown t.st⟩,
    fun t ht hfatal => ?_, fun f hf => ?_⟩
  · rw [hstep, State.advance, ht, finishCycle_next, hok]
    rfl
  · rw [hstep, State.advance, ht, finishCycle_next, hfatal]
    rfl
  · rw [hstep, State.advance, hf]
    rfl

/-! ### Fatal cycles -/

/-- Only a cycle whose fetch check finds a fatal fetch condition ends with it: the execute step raises other kinds. -/
theorem fetchCheck_of_step_fatal {s t : State} {k : FatalKind} (h : step s = .next t) (hk : t.outcome = .fatal k)
    (hfetch : k = .fetchOutOfRange ∨ k = .fetchPastRom) : s.fetchCheck = some k := by
  rcases step_fatal_cases h hk with ⟨hf, -⟩ | ⟨-, i, -, hc, -⟩
  · exact hf
  · rcases execCheck_kinds hc with rfl | rfl | rfl <;> simp at hfetch

/-- Settles O19: the bound is the first check of the fetch, and it reads only pc, which a fatal fetch leaves alone. -/
theorem fetchPastMemoryIsFatal : Obligations.FetchPastMemoryIsFatal := by
  refine fun s => ⟨fun hpast u hu => ?_, fun hbound t h hk => ?_⟩
  · have hpc : u.pc = s.pc := hu .pc (by decide)
    have hf : u.fetchCheck = some .fetchOutOfRange := fetchCheck_of_past_memory (by rwa [hpc])
    have hraise := keepsAllBut_raiseFatal u .fetchOutOfRange
    exact ⟨_, step_of_fetchCheck_eq_some hf, hu.trans hraise, hraise, rfl, rfl⟩
  · rcases fetchCheck_kinds (fetchCheck_of_step_fatal h hk (.inl rfl)) with ⟨-, hpast⟩ | ⟨hkind, -⟩
    · omega
    · cases hkind

/-- Settles O20: the ROM-end check is the second check of the fetch, and nothing else raises its kind. -/
theorem fetchPastRomIsFatalOnlyWhenChecked : Obligations.FetchPastRomIsFatalOnlyWhenChecked := by
  refine fun s => ⟨fun hcheck hbound hpast => ?_, fun hno t h hk => ?_⟩
  · exact ⟨_, step_of_fetchCheck_eq_some (fetchCheck_of_past_rom hbound hcheck hpast), keepsAllBut_raiseFatal s _,
      rfl, rfl⟩
  · rcases fetchCheck_kinds (fetchCheck_of_step_fatal h hk (.inr rfl)) with ⟨hkind, -⟩ | ⟨-, -, hcheck, hpast⟩
    · cases hkind
    · rcases hno with hoff | hbelow
      · rw [hcheck] at hoff
        cases hoff
      · omega

/-- Settles O22: a fatal fetch raises its condition in the state itself, a fatal execute step in the advanced state. -/
theorem fatalCycleKeepsOnlyTheAdvance : Obligations.FatalCycleKeepsOnlyTheAdvance := by
  intro s t k h hk
  rcases step_fatal_cases h hk with ⟨hf, rfl⟩ | ⟨hf, i, -, hc, rfl⟩
  · refine ⟨rfl, fun _ => keepsAllBut_raiseFatal s k, fun hexec => ?_⟩
    rcases fetchCheck_kinds hf with ⟨rfl, -⟩ | ⟨rfl, -⟩ <;> simp at hexec
  · refine ⟨rfl, fun hfetch => ?_, fun _ => ⟨toNat_advance_pc hf, ?_⟩⟩
    · rcases execCheck_kinds hc with rfl | rfl | rfl <;> simp at hfetch
    · exact ((keepsAllBut_advance s).comp (keepsAllBut_raiseFatal _ k)).mono (by decide)

/-! ### The timers over a cycle (R67, R146) -/

/-- DT after an execute step: Fx15 writes it (R23), as `stAfter` says of ST. -/
def dtAfter (s : State) : Instr → Byte
  | .ldDtVx x => s.v x
  | _ => s.dt

theorem exec_dt {i : Instr} {s t : State} (h : exec i s = .next t) : t.dt = dtAfter s i := by
  cases i with
  | ldDtVx x =>
    obtain rfl : s.setDt (s.v x) = t := Host.Outcome.next.inj h
    rfl
  | _ => exact exec_keepsAllBut h .dt (by simp [instrWrites])

theorem dtAfter_of_ne {i : Instr} (s : State) (h : ∀ x, i ≠ .ldDtVx x) : dtAfter s i = s.dt := by
  cases i with
  | ldDtVx x => exact absurd rfl (h x)
  | _ => rfl

theorem stAfter_of_ne {i : Instr} (s : State) (st : Byte) (h : ∀ x, i ≠ .ldStVx x) : stAfter s st i = st := by
  cases i with
  | ldStVx x => exact absurd rfl (h x)
  | _ => rfl

/-- A completed cycle of an instruction ticks the timers from what the instruction left in them; the advance before it
changes no register and no timer. -/
theorem step_timers_of_decode {s t : State} {i : Instr} (h : step s = .next t) (hok : t.outcome.isFatal = false)
    (hd : decode s.fetchWord = .ok i) :
    t.dt.toNat = (dtAfter s i).toNat - 1 ∧ t.st.toNat = (stAfter s s.st i).toNat - 1 := by
  rcases step_completed_cases h hok with ⟨j, e, hj, he, rfl⟩ | ⟨⟨r, hr⟩, -⟩
  · obtain rfl : j = i := Except.ok.inj (hj.symm.trans hd)
    obtain ⟨hst, -⟩ := exec_host he
    have hdt := exec_dt he
    have hdtAdv : dtAfter s.advance j = dtAfter s j := by cases j <;> rfl
    have hstAdv : stAfter s.advance s.advance.st j = stAfter s s.st j := by cases j <;> rfl
    rw [← hdtAdv, ← hdt, ← hstAdv, ← hst]
    exact ⟨toNat_tickDown e.dt, toNat_tickDown e.st⟩
  · rw [hd] at hr
    cases hr

/-- A completed cycle that writes neither timer ticks both, whether its word decodes or not. -/
theorem step_timers_of_not_written {s t : State} (h : step s = .next t) (hok : t.outcome.isFatal = false)
    (hno : ∀ x, decode s.fetchWord ≠ .ok (.ldDtVx x) ∧ decode s.fetchWord ≠ .ok (.ldStVx x)) :
    t.dt.toNat = s.dt.toNat - 1 ∧ t.st.toNat = s.st.toNat - 1 := by
  rcases step_completed_cases h hok with ⟨i, -, hd, -⟩ | ⟨-, rfl⟩
  · have htimers := step_timers_of_decode h hok hd
    rwa [dtAfter_of_ne s fun x hi => (hno x).1 (hi ▸ hd), stAfter_of_ne s _ fun x hi => (hno x).2 (hi ▸ hd)] at htimers
  · exact ⟨toNat_tickDown s.dt, toNat_tickDown s.st⟩

theorem step_timers_of_fatal {s t : State} (h : step s = .next t) (hfatal : t.outcome.isFatal = true) :
    t.dt = s.dt ∧ t.st = s.st := by
  cases hk : t.outcome with
  | ok ds => simp [hk, CycleOutcome.isFatal] at hfatal
  | fatal k => rcases step_fatal_cases h hk with ⟨-, rfl⟩ | ⟨-, i, -, -, rfl⟩ <;> exact ⟨rfl, rfl⟩

/-- Settles O23: a fatal cycle leaves the timers, and a completed one ticks them from what its execute step left. -/
theorem everyCompletedCycleTicksTheTimers : Obligations.EveryCompletedCycleTicksTheTimers :=
  fun _ _ h => ⟨step_timers_of_fatal h, fun hok => ⟨fun _ hd => step_timers_of_decode h hok hd,
    fun _ hd => (step_timers_of_decode h hok hd).symm, step_timers_of_not_written h hok⟩⟩

end Sys2Proof.Machine
end

section
/-! Proofs about control transfer (spec/41_control_flow.md R75 to R84): the words of its instructions, and what each
does to pc and the call stack. -/

namespace Sys2Proof.Machine

/-! ### The words of one row -/

/-- Instructions that all lie in one row of the opcode map, and that encode every word of the row, are what the row's
words decode to. -/
theorem decodesRow_of_row {mask bits : Word} {f : Word → Instr} (hrow : ∀ w, (f w).row = ⟨mask, bits⟩)
    (hencode : ∀ w, w &&& mask = bits → encode (f w) = w) : DecodesRow mask bits f := by
  intro w
  rw [decode_eq_ok_iff]
  refine ⟨hencode w, fun hw => ?_⟩
  obtain ⟨hmatch, -⟩ := encodesInRow (f w)
  rwa [hrow, hw] at hmatch

/-! ### Jumps -/

/-- A byte plus an address does not wrap, so the target of Bnnn is the sum itself (R83). -/
theorem toNat_offsetTarget (s : State) (nnn : Addr12) :
    (s.offsetTarget nnn).toNat = (s.v 0x0#4).toNat + nnn.toNat := by
  have hv := (s.v 0x0#4).isLt
  have hn := nnn.isLt
  rw [State.offsetTarget, BitVec.toNat_add, BitVec.toNat_setWidth, toNat_addrOf]
  omega

/-- Settles O26: both jumps write pc only, and neither target is reduced. -/
theorem jumpsSetPc : Obligations.JumpsSetPc :=
  ⟨decodesRow_of_row (fun _ => rfl) fun _ h => (eq_packNnn_of_and_F000 h).symm,
    decodesRow_of_row (fun _ => rfl) fun _ h => (eq_packNnn_of_and_F000 h).symm,
    fun s nnn => ⟨⟨_, rfl, toNat_addrOf nnn, keepsAllBut_setPc s _⟩,
      _, rfl, toNat_offsetTarget s nnn, keepsAllBut_setPc s _⟩⟩

/-! ### Skips -/

theorem skipIf_beq_pc (s : State) (a b : Byte) :
    (s.skipIf (a == b)).pc = if a.toNat = b.toNat then s.pc + 2#16 else s.pc := by
  simp only [skipIf_pc, beq_iff_eq, BitVec.toNat_inj]

theorem skipIf_bne_pc (s : State) (a b : Byte) :
    (s.skipIf (a != b)).pc = if a.toNat = b.toNat then s.pc else s.pc + 2#16 := by
  simp only [skipIf_pc, bne_iff_ne, BitVec.toNat_inj, ite_not]

/-- Settles O30: each skip writes pc only, when its comparison holds. -/
theorem immediateSkips : Obligations.ImmediateSkips :=
  ⟨decodesRow_of_row (fun _ => rfl) fun _ h => (eq_packXNn_of_and_F000 h).symm,
    decodesRow_of_row (fun _ => rfl) fun _ h => (eq_packXNn_of_and_F000 h).symm,
    fun s x nn => ⟨⟨_, rfl, skipIf_beq_pc s (s.v x) nn, keepsAllBut_skipIf s _⟩,
      _, rfl, skipIf_bne_pc s (s.v x) nn, keepsAllBut_skipIf s _⟩⟩

/-- Settles O31: the skips with a second register in place of the immediate. -/
theorem registerSkips : Obligations.RegisterSkips :=
  ⟨decodesRow_of_row (fun _ => rfl) fun _ h => (eq_packXYN_of_and_F00F h).symm,
    decodesRow_of_row (fun _ => rfl) fun _ h => (eq_packXYN_of_and_F00F h).symm,
    fun s x y => ⟨⟨_, rfl, skipIf_beq_pc s (s.v x) (s.v y), keepsAllBut_skipIf s _⟩,
      _, rfl, skipIf_bne_pc s (s.v x) (s.v y), keepsAllBut_skipIf s _⟩⟩

/-! ### Calls and returns -/

/-- An instruction that finds a fatal condition raises it, records it, and changes nothing else. -/
theorem exec_fatal {i : Instr} {s : State} {k : FatalKind} (h : s.execCheck i = some k) :
    ∃ t, exec i s = .next t ∧ t.outcome = .fatal k ∧ t.faults = s.faults ++ [k] ∧
      KeepsAllBut [.outcome, .faults] s t :=
  ⟨_, exec_of_execCheck_eq_some h, rfl, rfl, keepsAllBut_raiseFatal s k⟩

/-- A call below depth 16 stores pc at SP, one above the entries in use (R78). -/
theorem exec_call_of_room {s : State} {k : Fin 16} (hk : k.val = s.sp.val) (nnn : Addr12) :
    ∃ t, exec (.call nnn) s = .next t ∧ t.entry k = s.pc ∧ (∀ j, j ≠ k → t.entry j = s.entry j) ∧
      t.sp.val = s.sp.val + 1 ∧ t.pc.toNat = nnn.toNat ∧ KeepsAllBut [.pc, .stack, .sp] s t := by
  rcases execCall_cases nnn s with ⟨hfull, -⟩ | ⟨hlt, sp', hsp, he⟩
  · omega
  · refine ⟨_, he, ?_, fun j hj => ?_, hsp, toNat_addrOf nnn, ?_⟩
    · exact (entry_of_stack_set s _ hlt _ sp' k).trans (if_pos hk.symm)
    · exact (entry_of_stack_set s _ hlt _ sp' j).trans (if_neg fun h => hj (Fin.ext (h.symm.trans hk.symm)))
    · exact ((keepsAllBut_stack_sp s _ sp').comp (keepsAllBut_setPc _ _)).mono (by decide)

/-- Settles O27: below depth 16 there is room for pc, and a full stack is the fatal condition of CALL. -/
theorem callPushesTheReturnAddress : Obligations.CallPushesTheReturnAddress :=
  fun _ nnn => ⟨fun _ hk => exec_call_of_room hk nnn, fun hfull => exec_fatal (if_pos hfull)⟩

/-- A return above depth 0 reads the entry one below SP, and leaves it in place (R76, D26). -/
theorem exec_ret_of_entry {s : State} {k : Fin 16} (hk : k.val + 1 = s.sp.val) :
    ∃ t, exec .ret s = .next t ∧ t.pc = s.entry k ∧ t.sp.val = k.val ∧ KeepsAllBut [.pc, .sp] s t := by
  rcases execRet_cases s with ⟨hempty, -⟩ | ⟨j, sp', hj, hsp, he⟩
  · omega
  · obtain rfl : j = k := Fin.ext (by omega)
    exact ⟨_, he, rfl, hsp, ((keepsAllBut_sp s sp').comp (keepsAllBut_setPc _ _)).mono (by decide)⟩

/-- Settles O28: above depth 0 there is an entry to return to, and an empty stack is the fatal condition of RET. -/
theorem retPopsTheReturnAddress : Obligations.RetPopsTheReturnAddress :=
  fun _ => ⟨fun _ hk => exec_ret_of_entry hk, fun hempty => exec_fatal (if_pos hempty)⟩

/-- Settles O29: the return finds SP one above the entry that the call stored, and reads that entry. -/
theorem returnUndoesCall : Obligations.ReturnUndoesCall := by
  intro s t t' nnn hroom hcall hstack hsp
  obtain ⟨t₀, hcall', hentry, -, hdepth, -⟩ := exec_call_of_room (k := ⟨s.sp.val, hroom⟩) rfl nnn
  obtain rfl : t₀ = t := Host.Outcome.next.inj (hcall'.symm.trans hcall)
  have hdepth' : s.sp.val + 1 = t'.sp.val := hdepth.symm.trans (congrArg Fin.val hsp.symm)
  obtain ⟨u, hret, hpc, hspu, hkeeps⟩ := exec_ret_of_entry (k := ⟨s.sp.val, hroom⟩) hdepth'
  exact ⟨u, hret, hpc.trans ((hstack _).trans hentry), Fin.ext hspu, hkeeps⟩

end Sys2Proof.Machine
end

section
/-! Proofs about register loads, arithmetic and logic (spec/42_load_alu.md R85 to R98): what each operation on bytes
computes on numbers, what the two orders of the flag write and the result write leave in Vx and VF, and where the two
orders agree. -/

namespace Sys2Proof.Machine

/-! ### The registers an operation keeps -/

theorem keepsRegsBut_setV (s : State) (x : Nibble) (b : Byte) : KeepsRegsBut [x] s (s.setV x b) :=
  fun _ hz => v_setV_of_ne s b (List.ne_of_not_mem_cons hz)

theorem keepsRegsBut_flagAlu (s : State) (x y : Nibble) (f r : Byte → Byte → Byte) :
    KeepsRegsBut [x, Config.vf] s (s.flagAlu x y f r) := by
  intro z hz
  obtain ⟨hx, hf⟩ : z ≠ x ∧ z ≠ Config.vf := by simpa using hz
  exact v_flagAlu_of_ne s x y f r hx hf

/-! ### Loads, logic and the random byte -/

/-- Settles O32: both write Vx only, and a sum of bytes is the sum modulo 256. -/
theorem immediateLoadAndAdd : Obligations.ImmediateLoadAndAdd :=
  ⟨decodesRow_of_row (fun _ => rfl) fun _ h => (eq_packXNn_of_and_F000 h).symm,
    decodesRow_of_row (fun _ => rfl) fun _ h => (eq_packXNn_of_and_F000 h).symm,
    fun s x nn => ⟨⟨_, rfl, v_setV_self s x nn, keepsRegsBut_setV s x _, keepsAllBut_setV s x _⟩,
      _, rfl, by rw [v_setV_self, addResult, BitVec.toNat_add], keepsRegsBut_setV s x _, keepsAllBut_setV s x _⟩⟩

/-- Settles O33: each writes Vx only, and the bitwise operations on bytes are those of their bits. -/
theorem copyAndLogic : Obligations.CopyAndLogic := by
  intro s x y
  have hregs := keepsRegsBut_setV s x
  have hrest := keepsAllBut_setV s x
  refine ⟨⟨_, rfl, v_setV_self s x _, hregs _, hrest _⟩, ⟨_, rfl, fun b => ?_, hregs _, hrest _⟩,
    ⟨_, rfl, fun b => ?_, hregs _, hrest _⟩, ⟨_, rfl, fun b => ?_, hregs _, hrest _⟩⟩
  · rw [v_setV_self, BitVec.getLsbD_or]
  · rw [v_setV_self, BitVec.getLsbD_and]
  · rw [v_setV_self, BitVec.getLsbD_xor]

/-- Settles O39: the draw is counted, then written to Vx under the mask. -/
theorem randomByteUnderMask : Obligations.RandomByteUnderMask := by
  intro s x nn
  refine ⟨_, rfl, v_setV_self _ x _, fun b hb => ?_, rfl, keepsRegsBut_setV s.nextDraw x _,
    ((keepsAllBut_nextDraw s).comp (keepsAllBut_setV _ x _)).mono (by decide)⟩
  rw [v_setV_self, BitVec.getLsbD_and, hb, Bool.and_false]

/-! ### Operations on bytes as operations on numbers -/

/-- The operation on bytes is the operation `g` on the numbers the bytes stand for. -/
def Computes (op : Byte → Byte → Byte) (g : Nat → Nat → Nat) : Prop :=
  ∀ a b, (op a b).toNat = g a.toNat b.toNat

theorem Computes.swap {op : Byte → Byte → Byte} {g : Nat → Nat → Nat} (h : Computes op g) :
    Computes (fun a b => op b a) fun a b => g b a := fun a b => h b a

theorem toNat_flagByte_decide (p : Prop) [Decidable p] : (flagByte (decide p)).toNat = if p then 1 else 0 := by
  by_cases hp : p <;> simp [flagByte, hp]

/-- A bit of a byte as a flag is that binary digit of the number. -/
theorem toNat_flagByte_getLsbD (a : Byte) (k : Nat) : (flagByte (a.getLsbD k)).toNat = a.toNat / 2 ^ k % 2 := by
  rw [BitVec.getLsbD, Nat.testBit_eq_decide_div_mod_eq, toNat_flagByte_decide]
  split <;> omega

theorem computes_carryFlag : Computes carryFlag fun a b => if a + b > 255 then 1 else 0 :=
  fun _ _ => toNat_flagByte_decide _

theorem computes_notBorrowFlag : Computes notBorrowFlag fun a b => if a > b then 1 else 0 :=
  fun _ _ => toNat_flagByte_decide _

theorem computes_shiftedOutLow : Computes (fun a _ => shiftedOutLow a) fun a _ => a % 2 := by
  intro a _
  change (shiftedOutLow a).toNat = a.toNat % 2
  rw [shiftedOutLow, toNat_flagByte_getLsbD, pow_zero, Nat.div_one]

theorem computes_shiftedOutHigh : Computes (fun a _ => shiftedOutHigh a) fun a _ => a / 128 := by
  intro a _
  have ha := a.isLt
  change (shiftedOutHigh a).toNat = a.toNat / 128
  rw [shiftedOutHigh, toNat_flagByte_getLsbD]
  omega

theorem computes_addResult : Computes addResult fun a b => (a + b) % 256 := BitVec.toNat_add

theorem computes_subResult : Computes subResult fun a b => (256 + a - b) % 256 := by
  intro a b
  have hb := b.isLt
  change (subResult a b).toNat = (256 + a.toNat - b.toNat) % 256
  rw [subResult, BitVec.toNat_sub]
  omega

theorem computes_shrResult : Computes (fun a _ => shrResult a) fun a _ => a / 2 := by
  intro a _
  change (shrResult a).toNat = a.toNat / 2
  rw [shrResult, BitVec.toNat_ushiftRight, Nat.shiftRight_eq_div_pow, pow_one]

theorem computes_shlResult : Computes (fun a _ => shlResult a) fun a _ => 2 * a % 256 := by
  intro a _
  change (shlResult a).toNat = 2 * a.toNat % 256
  rw [shlResult, BitVec.toNat_shiftLeft, Nat.shiftLeft_eq, pow_one, Nat.mul_comm]

/-! ### The two orders of the flag write and the result write (R86) -/

section
variable {s : State} (x y : Nibble) (f r : Byte → Byte → Byte)

/-- The flag is written first. -/
theorem flagAlu_of_seqFlagFirst (h : s.config.aluSelfRef = .seqFlagFirst) :
    s.flagAlu x y f r =
      (s.setV Config.vf (f (s.v x) (s.v y))).setV x
        (r ((s.setV Config.vf (f (s.v x) (s.v y))).v x) ((s.setV Config.vf (f (s.v x) (s.v y))).v y)) := by
  simp only [State.flagAlu, h]

/-- The flag is written last. -/
theorem flagAlu_of_latchedFlagLast (h : s.config.aluSelfRef = .latchedFlagLast) :
    s.flagAlu x y f r = (s.setV x (r (s.v x) (s.v y))).setV Config.vf (f (s.v x) (s.v y)) := by
  simp only [State.flagAlu, h]

end

section
variable {s : State} {x y : Nibble} {i : Instr}
  {flag result : Byte → Byte → Byte} {flagNat resultNat : Nat → Nat → Nat}
  (hexec : exec i s = .next (s.flagAlu x y flag result)) (hflag : Computes flag flagNat)
  (hresult : Computes result resultNat)
include hexec hflag hresult

/-- With the flag first, an operand VF of the result is the flag, and only a result in VF overwrites it. -/
theorem exec_flagAlu_of_seqFlagFirst (hseq : s.config.aluSelfRef = .seqFlagFirst) {f a b : Nat}
    (hf : f = flagNat (s.v x).toNat (s.v y).toNat) (ha : a = if x = Config.vf then f else (s.v x).toNat)
    (hb : b = if y = Config.vf then f else (s.v y).toNat) :
    ∃ t, exec i s = .next t ∧ (t.v x).toNat = resultNat a b ∧ (x ≠ Config.vf → (t.v Config.vf).toNat = f) ∧
      KeepsRegsBut [x, Config.vf] s t ∧ KeepsAllBut [.regs] s t := by
  have operand (z : Nibble) : ((s.setV Config.vf (flag (s.v x) (s.v y))).v z).toNat =
      if z = Config.vf then f else (s.v z).toNat := by
    rw [v_setV, apply_ite BitVec.toNat, hflag, ← hf]
  refine ⟨_, hexec, ?_, fun hx => ?_, keepsRegsBut_flagAlu s x y _ _, keepsAllBut_flagAlu s x y _ _⟩
  · rw [flagAlu_of_seqFlagFirst x y _ _ hseq, v_setV_self, hresult, operand, operand, ← ha, ← hb]
  · rw [flagAlu_of_seqFlagFirst x y _ _ hseq, v_setV_of_ne _ _ hx.symm, v_setV_self, hflag, hf]

/-- With the flag last, the operands are the original ones, and the flag overwrites a result in VF. -/
theorem exec_flagAlu_of_latchedFlagLast (hlatched : s.config.aluSelfRef = .latchedFlagLast) :
    ∃ t, exec i s = .next t ∧ (t.v Config.vf).toNat = flagNat (s.v x).toNat (s.v y).toNat ∧
      (x ≠ Config.vf → (t.v x).toNat = resultNat (s.v x).toNat (s.v y).toNat) ∧
      KeepsRegsBut [x, Config.vf] s t ∧ KeepsAllBut [.regs] s t := by
  refine ⟨_, hexec, ?_, fun hx => ?_, keepsRegsBut_flagAlu s x y _ _, keepsAllBut_flagAlu s x y _ _⟩
  · rw [flagAlu_of_latchedFlagLast x y _ _ hlatched, v_setV_self, hflag]
  · rw [flagAlu_of_latchedFlagLast x y _ _ hlatched, v_setV_of_ne _ _ hx, v_setV_self, hresult]

end

/-- Settles O34: the flag is the carry and the result the sum. -/
theorem addWritesCarryThenSum : Obligations.AddWritesCarryThenSum :=
  fun _ _ _ _ _ _ hseq hf ha hb =>
    exec_flagAlu_of_seqFlagFirst rfl computes_carryFlag computes_addResult hseq hf ha hb

/-- Settles O35: 8xy7 is 8xy5 with the operands of the flag and of the result exchanged. -/
theorem subtractionsWriteNotBorrowThenDifference : Obligations.SubtractionsWriteNotBorrowThenDifference :=
  fun _ _ _ hseq =>
    ⟨fun _ _ _ hf ha hb =>
      exec_flagAlu_of_seqFlagFirst rfl computes_notBorrowFlag computes_subResult hseq hf ha hb,
    fun _ _ _ hf ha hb =>
      exec_flagAlu_of_seqFlagFirst rfl computes_notBorrowFlag.swap computes_subResult.swap hseq hf ha hb⟩

/-- Settles O36: neither the flag nor the result of a shift depends on the second operand. -/
theorem shiftsWriteTheBitShiftedOut : Obligations.ShiftsWriteTheBitShiftedOut :=
  fun _ _ _ hseq =>
    ⟨fun _ _ hf ha => exec_flagAlu_of_seqFlagFirst rfl computes_shiftedOutLow computes_shrResult hseq hf ha rfl,
    fun _ _ hf ha => exec_flagAlu_of_seqFlagFirst rfl computes_shiftedOutHigh computes_shlResult hseq hf ha rfl⟩

/-- Settles O37: one argument for the five instructions, with the flag and the result of each. -/
theorem latchedOrderWritesVFLast : Obligations.LatchedOrderWritesVFLast :=
  fun _ _ _ h =>
    ⟨exec_flagAlu_of_latchedFlagLast rfl computes_carryFlag computes_addResult h,
    exec_flagAlu_of_latchedFlagLast rfl computes_notBorrowFlag computes_subResult h,
    exec_flagAlu_of_latchedFlagLast rfl computes_shiftedOutLow computes_shrResult h,
    exec_flagAlu_of_latchedFlagLast rfl computes_notBorrowFlag.swap computes_subResult.swap h,
    exec_flagAlu_of_latchedFlagLast rfl computes_shiftedOutHigh computes_shlResult h⟩

/-! ### Where the two orders agree (R13, R86) -/

theorem setV_comm (s : State) {x z : Nibble} (h : x ≠ z) (b c : Byte) :
    (s.setV x b).setV z c = (s.setV z c).setV x b := by
  have hne : x.toNat ≠ z.toNat := fun heq => h (BitVec.eq_of_toNat_eq heq)
  simp only [State.setV, Vector.set_comm b c hne]

/-- Where VF is no operand, the flag write and the result write commute and neither reads the other: the order of
`P_ALU_SELFREF` does not show. -/
theorem flagAlu_of_ne_vf (s : State) {x y : Nibble} (f r : Byte → Byte → Byte) (hx : x ≠ Config.vf)
    (hy : y ≠ Config.vf) :
    s.flagAlu x y f r = (s.setV Config.vf (f (s.v x) (s.v y))).setV x (r (s.v x) (s.v y)) := by
  cases h : s.config.aluSelfRef with
  | seqFlagFirst => rw [flagAlu_of_seqFlagFirst x y f r h, v_setV_of_ne s _ hx, v_setV_of_ne s _ hy]
  | latchedFlagLast => rw [flagAlu_of_latchedFlagLast x y f r h, setV_comm s hx]

/-- The state with another order of the flag write and the result write. -/
def State.withAluSelfRef (s : State) (o : AluSelfRef) : State := { s with config := { s.config with aluSelfRef := o } }

/-- The font stays, so memory reads the same. -/
theorem keepsAllBut_withAluSelfRef (s : State) (o : AluSelfRef) : KeepsAllBut [.config] s (s.withAluSelfRef o) := by
  intro p hp
  cases p with
  | config => simp at hp
  | mem | regs | stack | keys => exact fun _ => rfl
  | fb => exact fun _ _ => rfl
  | _ => rfl

theorem flagAlu_withAluSelfRef (s : State) {x y : Nibble} (f r : Byte → Byte → Byte) (hx : x ≠ Config.vf)
    (hy : y ≠ Config.vf) (o : AluSelfRef) :
    (s.withAluSelfRef o).flagAlu x y f r = (s.flagAlu x y f r).withAluSelfRef o := by
  rw [flagAlu_of_ne_vf _ f r hx hy, flagAlu_of_ne_vf s f r hx hy]
  rfl

/-- Settles O38: the run under the other order is the first run, with the other order in its parameters. -/
theorem orderMattersOnlyForVF : Obligations.OrderMattersOnlyForVF := by
  intro s o x y i hx hy hi
  have hrun : ∃ t, exec i s = .next t ∧ exec i (s.withAluSelfRef o) = .next (t.withAluSelfRef o) := by
    rcases hi with rfl | rfl | rfl | rfl | rfl <;>
      exact ⟨_, rfl, congrArg _ (flagAlu_withAluSelfRef s _ _ hx hy o)⟩
  obtain ⟨t, ht, hu⟩ := hrun
  exact ⟨t, _, ht, hu, keepsAllBut_withAluSelfRef t o⟩

end Sys2Proof.Machine
end

section
/-! Proofs about the index register and memory transfer (spec/43_index_memory.md R99 to R104): what the instructions on
I leave in it, what the stores leave in memory, what the block load leaves in the registers, and the round trip. -/

namespace Sys2Proof.Machine

/-! ### Instructions that write I -/

theorem toNat_ofNat_of_lt {w n : Nat} (h : n < 2 ^ w) : (BitVec.ofNat w n).toNat = n := by
  rw [BitVec.toNat_ofNat, Nat.mod_eq_of_lt h]

theorem note_outcome_of_ok {s : State} {ds : List Diag} (d : Diag) (h : s.outcome = .ok ds) :
    (s.note d).outcome = .ok (ds ++ [d]) := by
  rw [State.note, h]

section
variable {i : Instr} {s : State}

theorem exec_setI {w : Word} {n : Nat} (hexec : exec i s = .next (s.setI w)) (hw : w.toNat = n) :
    ∃ t, exec i s = .next t ∧ t.i.toNat = n ∧ KeepsAllBut [.i] s t :=
  ⟨_, hexec, hw, keepsAllBut_setI s w⟩

/-- A locally recovered condition of the index register is noted, and I falls back to 0 (R70). -/
theorem exec_note_setI_zero {d : Diag} (hexec : exec i s = .next ((s.note d).setI 0#16)) :
    ∃ t, exec i s = .next t ∧ t.i.toNat = 0 ∧ (∀ ds, s.outcome = .ok ds → t.outcome = .ok (ds ++ [d])) ∧
      KeepsAllBut [.i, .outcome] s t :=
  ⟨_, hexec, rfl, fun _ => note_outcome_of_ok d,
    ((keepsAllBut_note s d).comp (keepsAllBut_setI _ _)).mono (by decide)⟩

end

/-- Settles O40: I takes the address of the instruction, which is no wider than I. -/
theorem loadIndex : Obligations.LoadIndex :=
  ⟨decodesRow_of_row (fun _ => rfl) fun _ h => (eq_packNnn_of_and_F000 h).symm,
    fun _ nnn => exec_setI rfl (toNat_addrOf nnn)⟩

/-- Settles O41: a sum that I holds is written unreduced, and a larger one is an index overflow. -/
theorem addToIndex : Obligations.AddToIndex :=
  fun _ _ => ⟨fun hle => exec_setI (if_neg (Nat.not_lt.mpr hle)) (toNat_ofNat_of_lt (hle.trans_lt (by decide))),
    fun hpast => exec_note_setI_zero (if_pos hpast)⟩

theorem toNat_glyphAddr {d : Byte} (h : d.toNat < 16) : (glyphAddr d).toNat = 0x050 + 5 * d.toNat :=
  toNat_ofNat_of_lt (by simp only [Config.fontBase, Config.glyphBytes]; omega)

/-- Settles O42: the glyphs of the 16 digits lie 5 bytes apart from 0x050 on, and a larger byte has no glyph. -/
theorem pointIndexAtGlyph : Obligations.PointIndexAtGlyph :=
  ⟨decodesRow_of_row (fun _ => rfl) fun _ h => (eq_packXNn_of_and_F0FF h).symm,
    fun _ _ => ⟨fun hlt => exec_setI (if_neg (Nat.not_le.mpr hlt)) (toNat_glyphAddr hlt),
      fun hge => exec_note_setI_zero (if_pos hge)⟩⟩

/-! ### A block of writes, inside and outside -/

section
variable {s : State} {a : Nat} {bs : List Byte} (hmem : s.memWf) (ha : a + bs.length ≤ 4096)
include hmem ha

theorem readByte_writeBytes_add {k : Nat} (hk : k < bs.length) :
    (s.writeBytes a bs).readByte (a + k) = bs.getD k 0#8 := by
  rw [readByte_writeBytes hmem ha, if_pos (by omega), Nat.add_sub_cancel_left]

theorem readByte_writeBytes_of_outside {c : Nat} (hc : c < a ∨ a + bs.length ≤ c) :
    (s.writeBytes a bs).readByte c = s.readByte c := by
  rw [readByte_writeBytes hmem ha, if_neg (by omega)]

end

/-! ### The decimal digits (R102) -/

theorem exec_ldBVx_of_le {s : State} {x : Nibble} (h : s.indexAddr + 2 ≤ 4095) :
    exec (.ldBVx x) s = .next (s.writeBytes s.indexAddr (bcdDigits (s.v x))) :=
  if_neg (Nat.not_lt.mpr h)

/-- Each decimal digit of a byte fits a byte, so none is reduced. -/
theorem exists_bcdDigits_eq (b : Byte) :
    ∃ h t u : Byte, bcdDigits b = [h, t, u] ∧ h.toNat = b.toNat / 100 ∧ t.toNat = b.toNat / 10 % 10 ∧
      u.toNat = b.toNat % 10 := by
  have hb := b.isLt
  exact ⟨_, _, _, rfl, toNat_ofNat_of_lt (by omega), toNat_ofNat_of_lt (by omega),
    toNat_ofNat_of_lt (by omega)⟩

/-- Settles O43: the three digits are a block of writes at I, and one that would pass the end of memory is a fault. -/
theorem storeDecimalDigits : Obligations.StoreDecimalDigits := by
  rintro s x ⟨-, -, -, -, hmem⟩
  refine ⟨fun hle => ?_, fun hpast => if_pos hpast⟩
  have hexec := exec_ldBVx_of_le (x := x) hle
  obtain ⟨h, t, u, hdigits, hh, ht, hu⟩ := exists_bcdDigits_eq (s.v x)
  rw [hdigits] at hexec
  have hlen : [h, t, u].length = 3 := rfl
  have hfit : s.indexAddr + [h, t, u].length ≤ 4096 := by omega
  have hread {k : Nat} (hk : k < 3) := readByte_writeBytes_add hmem hfit hk
  refine ⟨_, hexec, ?_, ?_, ?_, fun a hout => ?_, keepsAllBut_writeBytes s _ _⟩
  · exact (congrArg BitVec.toNat (hread (k := 0) (by decide))).trans hh
  · exact (congrArg BitVec.toNat (hread (k := 1) (by decide))).trans ht
  · exact (congrArg BitVec.toNat (hread (k := 2) (by decide))).trans hu
  · exact readByte_writeBytes_of_outside hmem hfit (by omega)

/-! ### The block transfers (R103, R104) -/

theorem toNat_lt_blockCount {x k : Nibble} (h : k.toNat ≤ x.toNat) : k.toNat < blockCount x :=
  Nat.lt_add_one_of_le h

section
variable {s : State} {x : Nibble} (hle : s.indexAddr + x.toNat ≤ 4095)
include hle

/-- A block store inside memory lays V0 to Vx at I to I + x and leaves everything else. -/
theorem exec_stRegs_stores (hmem : s.memWf) :
    ∃ t, exec (.stRegs x) s = .next t ∧
      (∀ k : Nibble, k.toNat ≤ x.toNat → t.readByte (s.indexAddr + k.toNat) = s.v k) ∧
      (∀ a, a < s.indexAddr ∨ s.indexAddr + x.toNat < a → t.readByte a = s.readByte a) ∧
      KeepsAllBut [.mem] s t := by
  have hlen : (s.lowRegs (blockCount x)).length = x.toNat + 1 := length_lowRegs _ _
  have hfit : s.indexAddr + (s.lowRegs (blockCount x)).length ≤ 4096 := by omega
  refine ⟨_, exec_stRegs_of_le hle, fun k hk => ?_, fun a hout => ?_, keepsAllBut_writeBytes s _ _⟩
  · rw [readByte_writeBytes_add hmem hfit (by omega), getD_lowRegs_toNat s k (toNat_lt_blockCount hk)]
  · exact readByte_writeBytes_of_outside hmem hfit (by omega)

theorem exec_ldRegs_of_le :
    exec (.ldRegs x) s = .next (s.writeRegs 0 (s.readBytes s.indexAddr (blockCount x))) :=
  if_neg (Nat.not_lt.mpr hle)

/-- A block load inside memory brings the bytes at I to I + x into V0 to Vx and leaves everything else. -/
theorem exec_ldRegs_loads :
    ∃ t, exec (.ldRegs x) s = .next t ∧
      (∀ k : Nibble, k.toNat ≤ x.toNat → t.v k = s.readByte (s.indexAddr + k.toNat)) ∧
      (∀ k : Nibble, x.toNat < k.toNat → t.v k = s.v k) ∧ KeepsAllBut [.regs] s t := by
  have hx := x.isLt
  have hlen : (s.readBytes s.indexAddr (blockCount x)).length = x.toNat + 1 := length_readBytes _ _ _
  have hexec := exec_ldRegs_of_le hle
  refine ⟨_, hexec, fun k hk => ?_, fun k hk => (execLdRegs_keepsReg x s hk).of_eq_next hexec,
    keepsAllBut_writeRegs s _ _⟩
  rw [v_writeRegs s 0 _ (by omega), if_pos (by omega), Nat.sub_zero,
    getD_readBytes s _ _ _ (toNat_lt_blockCount hk)]

end

/-- Settles O44: inside memory the registers are a block of writes at I, and a block past memory is the fatal condition
of the transfer. -/
theorem storeRegisterBlock : Obligations.StoreRegisterBlock :=
  fun _ _ ⟨_, _, _, _, hmem⟩ => ⟨fun hle => exec_stRegs_stores hle hmem, fun hpast => exec_fatal (if_pos hpast)⟩

/-- Settles O45: inside memory the bytes at I are a block of register writes, and a block past memory is the fatal
condition of the transfer. -/
theorem loadRegisterBlock : Obligations.LoadRegisterBlock :=
  fun _ _ => ⟨exec_ldRegs_loads, fun hpast => exec_fatal (if_pos hpast)⟩

/-- Settles O46: the store leaves I, so the load reads the addresses that the store wrote. -/
theorem blockLoadUndoesBlockStore : Obligations.BlockLoadUndoesBlockStore := by
  rintro s t t' x ⟨-, -, -, -, hmem⟩ hle hstore hsame hi
  obtain ⟨t₀, hstore', hstored, -, hkeeps⟩ := exec_stRegs_stores hle hmem
  obtain rfl : t₀ = t := Host.Outcome.next.inj (hstore'.symm.trans hstore)
  have haddr : t'.indexAddr = s.indexAddr := congrArg BitVec.toNat ((hkeeps .i (by decide)).trans hi)
  obtain ⟨u, hload, hloaded, -, -⟩ := exec_ldRegs_loads (haddr.symm ▸ hle)
  refine ⟨u, hload, fun k hk => ?_⟩
  rw [hloaded k hk, haddr, hsame, hstored k hk]

end Sys2Proof.Machine
end

section
/-! Proofs about the display (spec/44_display.md R105 to R116): the cleared screen, what one draw leaves in the
framebuffer and in VF, and two draws of one sprite at one position. -/

namespace Sys2Proof.Machine

/-- Settles O48: the screen is cleared, then `redraw` is set. -/
theorem clearScreen : Obligations.ClearScreen :=
  fun s => ⟨_, rfl, pixel_clearPixels s, rfl, exec_keepsAllBut (i := .cls) rfl⟩

/-! ### The two ends of a draw (R115) -/

/-- The state after a draw of `rows` rows at column `x0` and row `y0` (R108 to R114). -/
def State.drawn (s : State) (x0 y0 rows : Nat) : State :=
  ((s.setV Config.vf 0#8).blitRows x0 y0 rows).setRedraw true

section
variable {s : State} {x y n : Nibble} {x0 y0 rows : Nat} (hx : x0 = (s.v x).toNat % 64)
  (hy : y0 = (s.v y).toNat % 32) (hrows : rows = min n.toNat (32 - y0))
include hy hrows

/-- The rows drawn all lie on the screen (R109). -/
theorem row_add_rows_le : y0 + rows ≤ 32 := by omega

theorem exec_drw_of_past (hpos : rows > 0) (hpast : s.i.toNat + rows - 1 > 4095) :
    exec (.drw x y n) s = .fault .spriteReadOutOfRange := by
  subst hrows hy
  exact if_pos ⟨hpos, hpast⟩

include hx

theorem exec_drw_of_inside (hin : rows = 0 ∨ s.i.toNat + rows - 1 ≤ 4095) :
    exec (.drw x y n) s = .next (s.drawn x0 y0 rows) := by
  subst hrows hy hx
  exact if_neg fun ⟨hpos, hpast⟩ => hin.elim hpos.ne' hpast.not_ge

theorem eq_drawn_of_exec_drw {t : State} (h : exec (.drw x y n) s = .next t) : t = s.drawn x0 y0 rows := by
  by_cases hin : rows = 0 ∨ s.i.toNat + rows - 1 ≤ 4095
  · exact Host.Outcome.next.inj (h.symm.trans (exec_drw_of_inside hx hy hrows hin))
  · have hfault : exec (.drw x y n) s = .fault .spriteReadOutOfRange :=
      exec_drw_of_past hy hrows (by omega) (by omega)
    cases h.symm.trans hfault

end

/-- Settles O50: the two ends of a draw are told apart by the last row it reads. -/
theorem spritePastMemoryIsUndefined : Obligations.SpritePastMemoryIsUndefined :=
  fun _ _ _ _ _ hrows => ⟨exec_drw_of_past rfl hrows, fun hin => ⟨_, exec_drw_of_inside rfl rfl hrows hin⟩⟩

/-! ### The sprite over the framebuffer -/

/-- A bit 1 of the first `rows` rows of the sprite lies over the pixel, when the sprite's corner is at `x0`, `y0`. -/
def State.spriteOver (s : State) (x0 y0 rows col row : Nat) : Bool :=
  decide (y0 ≤ row ∧ row < y0 + rows ∧ rowCovers x0 (s.readByte (s.indexAddr + (row - y0))) 8 col)

/-- A bit 1 of the first `rows` rows of the sprite falls on a pixel with value `p`, when the sprite's corner is at
`x0`, `y0`; on a pixel 1 it is a collision (R113). -/
def State.spriteMeets (s : State) (x0 y0 rows : Nat) (p : Bool) : Prop :=
  ∃ r c, r < rows ∧ c < 8 ∧ (s.readByte (s.i.toNat + r)).getLsbD (7 - c) = true ∧
    s.pixel ((x0 + c) % 64) (y0 + r) = p

/-- The 8 columns of a row are distinct, so a column takes its own bit and no other (R110, R111). -/
theorem rowCovers_column_iff (x0 : Nat) (b : Byte) {c : Nat} (hc : c < 8) :
    rowCovers x0 b 8 ((x0 + c) % 64) ↔ spriteBit b c = true := by
  constructor
  · rintro ⟨j, hj, hcol, hbit⟩
    obtain rfl : c = j := by omega
    exact hbit
  · exact fun hbit => ⟨c, hc, rfl, hbit⟩

section
variable (s : State) (x0 y0 : Nat) {rows : Nat}

theorem spriteOver_inside {r c : Nat} (hr : r < rows) (hc : c < 8) :
    s.spriteOver x0 y0 rows ((x0 + c) % 64) (y0 + r) = (s.readByte (s.i.toNat + r)).getLsbD (7 - c) := by
  have hrow : y0 ≤ y0 + r ∧ y0 + r < y0 + rows := by omega
  rw [State.spriteOver, Nat.add_sub_cancel_left]
  simp only [hrow, true_and, rowCovers_column_iff x0 _ hc, spriteBit, State.indexAddr, Bool.decide_eq_true]

theorem spriteOver_outside {col row : Nat}
    (hout : ∀ r c, r < rows → c < 8 → ¬(col = (x0 + c) % 64 ∧ row = y0 + r)) :
    s.spriteOver x0 y0 rows col row = false := by
  refine decide_eq_false ?_
  rintro ⟨hlo, hhi, c, hc, hcol, -⟩
  exact hout (row - y0) c (by omega) hc ⟨hcol, by omega⟩

theorem rowsHit_iff_spriteMeets : s.rowsHit x0 y0 rows = true ↔ s.spriteMeets x0 y0 rows true := by
  simp only [State.rowsHit, State.rowHits, State.spriteMeets, List.any_eq_true, List.mem_range, Bool.and_eq_true,
    spriteBit, State.indexAddr, exists_and_left]

/-- Every bit of a byte is the bit of a column, and its pixel is 1 or 0. -/
theorem spriteMeets_true_or_false_iff :
    s.spriteMeets x0 y0 rows true ∨ s.spriteMeets x0 y0 rows false ↔
      ∃ r b, r < rows ∧ (s.readByte (s.i.toNat + r)).getLsbD b = true := by
  constructor
  · rintro (⟨r, c, hr, -, hbit, -⟩ | ⟨r, c, hr, -, hbit, -⟩) <;> exact ⟨r, 7 - c, hr, hbit⟩
  · rintro ⟨r, b, hr, hbit⟩
    have hb : b < 8 := BitVec.lt_of_getLsbD hbit
    have hcol : (s.readByte (s.i.toNat + r)).getLsbD (7 - (7 - b)) = true := by
      rwa [Nat.sub_sub_self (Nat.le_of_lt_succ hb)]
    cases hp : s.pixel ((x0 + (7 - b)) % 64) (y0 + r) with
    | true => exact .inl ⟨r, 7 - b, hr, by omega, hcol, hp⟩
    | false => exact .inr ⟨r, 7 - b, hr, by omega, hcol, hp⟩

end

/-! ### One draw (R108 to R113) -/

section
variable (s : State) (x0 : Nat) {y0 rows : Nat} (hfit : y0 + rows ≤ 32)
include hfit

theorem pixel_drawn (col row : Nat) :
    (s.drawn x0 y0 rows).pixel col row = (s.pixel col row ^^ s.spriteOver x0 y0 rows col row) :=
  pixel_blitRows (s.setV Config.vf 0#8) x0 hfit col row

theorem pixel_drawn_inside {r c : Nat} (hr : r < rows) (hc : c < 8) :
    (s.drawn x0 y0 rows).pixel ((x0 + c) % 64) (y0 + r)
      = (s.pixel ((x0 + c) % 64) (y0 + r) ^^ (s.readByte (s.i.toNat + r)).getLsbD (7 - c)) := by
  rw [pixel_drawn s x0 hfit, spriteOver_inside s x0 y0 hr hc]

theorem pixel_drawn_outside {col row : Nat}
    (hout : ∀ r c, r < rows → c < 8 → ¬(col = (x0 + c) % 64 ∧ row = y0 + r)) :
    (s.drawn x0 y0 rows).pixel col row = s.pixel col row := by
  rw [pixel_drawn s x0 hfit, spriteOver_outside s x0 y0 hout, Bool.xor_false]

/-- VF is the collision flag: it is cleared, then set by the first collision. -/
theorem vf_drawn : (s.drawn x0 y0 rows).v Config.vf = flagByte (s.rowsHit x0 y0 rows) := by
  refine (v_blitRows (s.setV Config.vf 0#8) x0 hfit Config.vf).trans ?_
  rw [v_setV_self, flagByte]
  exact if_congr (and_iff_right rfl) rfl rfl

theorem toNat_vf_drawn_eq_one_iff :
    ((s.drawn x0 y0 rows).v Config.vf).toNat = 1 ↔ s.spriteMeets x0 y0 rows true := by
  rw [vf_drawn s x0 hfit, ← rowsHit_iff_spriteMeets]
  cases s.rowsHit x0 y0 rows <;> decide

theorem toNat_vf_drawn_eq_zero_iff :
    ((s.drawn x0 y0 rows).v Config.vf).toNat = 0 ↔ ¬s.spriteMeets x0 y0 rows true := by
  rw [vf_drawn s x0 hfit, ← rowsHit_iff_spriteMeets]
  cases s.rowsHit x0 y0 rows <;> decide

theorem toNat_vf_drawn_le_one : ((s.drawn x0 y0 rows).v Config.vf).toNat ≤ 1 := by
  rw [vf_drawn s x0 hfit]
  cases s.rowsHit x0 y0 rows <;> decide

end

/-- Settles O49: the sprite is laid over the framebuffer by XOR, and a bit 1 of it that meets a pixel 1 sets VF. -/
theorem drawSpriteXorsAndReportsCollision : Obligations.DrawSpriteXorsAndReportsCollision := by
  intro s x y n x0 y0 rows hx hy hrows hin
  have hexec := exec_drw_of_inside hx hy hrows hin
  have hfit := row_add_rows_le hy hrows
  refine ⟨s.drawn x0 y0 rows, hexec, fun r c => pixel_drawn_inside s x0 hfit,
    fun col row => pixel_drawn_outside s x0 hfit, (toNat_vf_drawn_eq_one_iff s x0 hfit).mpr, fun hnone => ?_, rfl,
    fun z hz => ?_, exec_keepsAllBut hexec⟩
  · refine (toNat_vf_drawn_eq_zero_iff s x0 hfit).mpr ?_
    rintro ⟨r, c, hr, hc, hbit, hset⟩
    exact Bool.false_ne_true ((hnone r c hr hc hbit).symm.trans hset)
  · have hz' : z ≠ Config.vf := fun h => hz (List.mem_singleton.mpr h)
    exact (execDrw_keepsReg x y n s hz').of_eq_next hexec

/-! ### Two draws of one sprite (R116) -/

section
variable {s t : State} (x0 : Nat) {y0 rows : Nat} (hfit : y0 + rows ≤ 32)
  (hfb : SamePart .fb (s.drawn x0 y0 rows) t) (hi : t.i = s.i)
  (hbytes : ∀ r, r < rows → t.readByte (s.i.toNat + r) = s.readByte (s.i.toNat + r))

include hi hbytes in
theorem spriteOver_of_same_bytes (col row : Nat) :
    t.spriteOver x0 y0 rows col row = s.spriteOver x0 y0 rows col row := by
  refine decide_eq_decide.mpr (and_congr_right fun hlo => and_congr_right fun hhi => ?_)
  rw [State.indexAddr, hi, hbytes _ (by omega), State.indexAddr]

include hfit hfb hi hbytes

/-- A bit that is laid over a pixel twice by XOR leaves it as it was. -/
theorem pixel_drawn_twice (col row : Nat) : (t.drawn x0 y0 rows).pixel col row = s.pixel col row := by
  have hsame : t.pixel col row = (s.drawn x0 y0 rows).pixel col row := hfb col row
  rw [pixel_drawn t x0 hfit, hsame, pixel_drawn s x0 hfit, spriteOver_of_same_bytes x0 hi hbytes, Bool.xor_assoc,
    Bool.xor_self, Bool.xor_false]

/-- The first draw turns over every pixel under a bit 1, so the second collides where that pixel was 0. -/
theorem spriteMeets_after_drawn : t.spriteMeets x0 y0 rows true ↔ s.spriteMeets x0 y0 rows false := by
  refine exists_congr fun r => exists_congr fun c => and_congr_right fun hr => and_congr_right fun hc => ?_
  rw [hi, hbytes r hr]
  refine and_congr_right fun hbit => ?_
  have hflip : t.pixel ((x0 + c) % 64) (y0 + r) = !s.pixel ((x0 + c) % 64) (y0 + r) := by
    rw [hfb, pixel_drawn_inside s x0 hfit hr hc, hbit, Bool.xor_true]
  rw [hflip, Bool.not_eq_true']

theorem toNat_vf_drawn_twice_eq_one_iff :
    ((t.drawn x0 y0 rows).v Config.vf).toNat = 1 ↔ s.spriteMeets x0 y0 rows false :=
  (toNat_vf_drawn_eq_one_iff t x0 hfit).trans (spriteMeets_after_drawn x0 hfit hfb hi hbytes)

end

/-- Settles O51: the second draw turns over the same pixels again, and collides where the first met a pixel 0. -/
theorem drawingTwiceRestoresTheFramebuffer : Obligations.DrawingTwiceRestoresTheFramebuffer := by
  intro s t t' u x y x' y' n x0 y0 rows hx hy hrows hfirst hsecond hfb hi hx' hy' hbytes
  obtain rfl := eq_drawn_of_exec_drw hx hy hrows hfirst
  obtain rfl := eq_drawn_of_exec_drw hx'.symm hy'.symm hrows hsecond
  have hfit := row_add_rows_le hy hrows
  have hone := toNat_vf_drawn_eq_one_iff s x0 hfit
  have htwo := toNat_vf_drawn_twice_eq_one_iff x0 hfit hfb hi hbytes
  have heither := spriteMeets_true_or_false_iff s x0 y0 (rows := rows)
  refine ⟨pixel_drawn_twice x0 hfit hfb hi hbytes, htwo, toNat_vf_drawn_le_one t' x0 hfit, fun hclear => ?_,
    (or_congr hone htwo).trans heither⟩
  have hmiss := (toNat_vf_drawn_eq_zero_iff s x0 hfit).mp hclear
  exact htwo.trans ((or_iff_right hmiss).symm.trans heither)

/-- The first row of the glyph of 1, which is 0x20, over a screen on which the one pixel it will meet is set. -/
def glyphRowOverSetPixel : State := (State.reset.setI 0x055#16).setPixel 2 0 true

/-- Refutes O52: the first draw of that row clears the pixel, and the second sets it again without a collision. -/
theorem not_secondDrawCollidesWheneverABitIsDrawn : ¬Obligations.SecondDrawCollidesWheneverABitIsDrawn := by
  intro h
  obtain ⟨-, hvf⟩ := h glyphRowOverSetPixel (glyphRowOverSetPixel.drawn 0 0 1) (glyphRowOverSetPixel.drawn 0 0 1)
    ((glyphRowOverSetPixel.drawn 0 0 1).drawn 0 0 1) 0#4 0#4 0#4 0#4 1#4 1 (by decide) (by rfl) (by rfl)
    (fun _ _ => rfl) (by decide) (by decide) (by decide) (by decide)
  exact absurd (hvf.mpr ⟨0, 5, by decide, by decide⟩) (by decide)

end Sys2Proof.Machine
end

section
/-! Proofs about the keypad and timer instructions (spec/45_keys_timers.md R117 to R122): the words of the timer
transfers and of the wait for a key, and what each instruction does to the registers, the timers and pc. -/

namespace Sys2Proof.Machine

/-! ### Timer transfers -/

/-- Settles O54: each transfer is one write of a register or of a timer, which leaves everything else alone. -/
theorem timerTransfers : Obligations.TimerTransfers :=
  ⟨decodesRow_of_row (fun _ => rfl) fun _ h => (eq_packXNn_of_and_F0FF h).symm,
    decodesRow_of_row (fun _ => rfl) fun _ h => (eq_packXNn_of_and_F0FF h).symm,
    decodesRow_of_row (fun _ => rfl) fun _ h => (eq_packXNn_of_and_F0FF h).symm,
    fun s x => ⟨⟨_, rfl, v_setV_self s x _, keepsRegsBut_setV s x _, keepsAllBut_setV s x _⟩,
      ⟨_, rfl, setDt_dt s _, keepsAllBut_setDt s _⟩, _, rfl, setSt_st s _, keepsAllBut_setSt s _⟩⟩

/-! ### The wait for a key (R120) -/

section
variable {s : State}

/-- A pressed key below which none is pressed is the first pressed key: the scan ascends. -/
theorem firstKey_of_lowest {k : Nat} (hk : k < 16) (hdown : s.key k = true) (hlow : ∀ j, j < k → s.key j = false) :
    s.firstKey = some k :=
  List.find?_range_eq_some.mpr ⟨hdown, List.mem_range.mpr hk, fun j hj => by rw [hlow j hj, Bool.not_false]⟩

theorem firstKey_of_none_pressed (hup : ∀ k, k < 16 → s.key k = false) : s.firstKey = none :=
  List.find?_range_eq_none.mpr fun k hk => by rw [hup k hk, Bool.not_false]

theorem exec_ldVxK_of_firstKey_eq_some {k : Nat} (h : s.firstKey = some k) (x : Nibble) :
    exec (.ldVxK x) s = .next (s.setV x (BitVec.ofNat 8 k)) := by
  rw [exec, execLdVxK, h]

theorem exec_ldVxK_of_firstKey_eq_none (h : s.firstKey = none) (x : Nibble) :
    exec (.ldVxK x) s = .next (s.setPc (s.pc - 2#16)) := by
  rw [exec, execLdVxK, h]

end

/-- Settles O55: the lowest pressed key is the one the scan finds, and fits a register; with none pressed only pc is
written. -/
theorem waitForKey : Obligations.WaitForKey := by
  refine ⟨decodesRow_of_row (fun _ => rfl) fun _ h => (eq_packXNn_of_and_F0FF h).symm,
    fun s x => ⟨fun k hk hdown hlow => ?_, fun hup => ?_⟩⟩
  · refine ⟨_, exec_ldVxK_of_firstKey_eq_some (firstKey_of_lowest hk hdown hlow) x, ?_, keepsRegsBut_setV s x _,
      keepsAllBut_setV s x _⟩
    rw [v_setV_self, toNat_ofNat_of_lt (hk.trans (by decide))]
  · exact ⟨_, exec_ldVxK_of_firstKey_eq_none (firstKey_of_none_pressed hup) x, rfl, keepsAllBut_setPc s _⟩

/-! ### Skips by a key (R117, R118) -/

theorem skipIf_not_pc (s : State) (c : Bool) : (s.skipIf (!c)).pc = if c = true then s.pc else s.pc + 2#16 := by
  cases c <;> rfl

/-- Settles O53: a register below 16 names a key, whose flag decides a skip that writes pc only; a larger one names
none. -/
theorem keySkips : Obligations.KeySkips :=
  fun s _ => ⟨fun hlt =>
      have hkey := Nat.not_le.mpr hlt
      ⟨⟨_, if_neg hkey, skipIf_pc s _, keepsAllBut_skipIf s _⟩,
        _, if_neg hkey, skipIf_not_pc s _, keepsAllBut_skipIf s _⟩,
    fun hge => ⟨if_pos hge, if_pos hge⟩⟩

end Sys2Proof.Machine
end

section
/-! Proofs about the conditions of a cycle and the host interface (spec/60_exceptions.md R124 to R138): which execute
steps end undefined and which end fatal, and what each call of the host reads and writes. -/

namespace Sys2Proof.Machine

/-! ### Undefined execute steps (R71, R124) -/

/-- The undefined condition an instruction finds in the state it executes in, as `State.execCheck` gives the fatal one:
a sprite row past memory at Dxyn (R115), a digit past memory at Fx33 (R102), a key that does not exist at Ex9E and ExA1
(R117, R118). -/
def State.undefinedCheck (s : State) (i : Instr) : Option Fault :=
  match i with
  | .drw _ y n =>
    if s.spriteRows y n > 0 ∧ s.indexAddr + s.spriteRows y n - 1 > 4095 then some .spriteReadOutOfRange else none
  | .ldBVx _ => if s.indexAddr + 2 > 4095 then some .bcdWriteOutOfRange else none
  | .skp x | .sknp x => if (s.v x).toNat ≥ 16 then some .keyIndexOutOfRange else none
  | _ => none

section
variable {i : Instr} {s : State}

theorem exec_of_undefinedCheck_eq_some {f : Fault} (h : s.undefinedCheck i = some f) : exec i s = .fault f := by
  cases i with
  | drw | ldBVx | skp | sknp =>
    obtain ⟨hcond, ⟨⟩⟩ := Option.ite_none_right_eq_some.mp h
    exact if_pos hcond
  | _ => simp [State.undefinedCheck] at h

theorem exec_of_undefinedCheck_eq_none (h : s.undefinedCheck i = none) : ∃ t, exec i s = .next t := by
  cases i with
  | drw | ldBVx | skp | sknp => exact ⟨_, if_neg (by simpa [State.undefinedCheck] using h)⟩
  | ret => rcases execRet_cases s with ⟨-, he⟩ | ⟨_, _, -, -, he⟩ <;> exact ⟨_, he⟩
  | call nnn => rcases execCall_cases nnn s with ⟨-, he⟩ | ⟨_, _, -, he⟩ <;> exact ⟨_, he⟩
  | ldVxK x => rcases execLdVxK_cases x s with ⟨_, -, he⟩ | ⟨-, he⟩ <;> exact ⟨_, he⟩
  | addIVx | ldFVx | stRegs | ldRegs => exact ⟨_, (apply_ite Host.Outcome.next _ _ _).symm⟩
  | _ => exact ⟨_, rfl⟩

/-- An execute step has two ends: it completes where no undefined condition is found, and is never refused. -/
theorem exec_ends (i : Instr) (s : State) :
    (s.undefinedCheck i = none ∧ ∃ t, exec i s = .next t) ∨
      ∃ f, s.undefinedCheck i = some f ∧ exec i s = .fault f := by
  cases h : s.undefinedCheck i with
  | none => exact .inl ⟨rfl, exec_of_undefinedCheck_eq_none h⟩
  | some f => exact .inr ⟨f, rfl, exec_of_undefinedCheck_eq_some h⟩

theorem exec_eq_fault_iff {f : Fault} : exec i s = .fault f ↔ s.undefinedCheck i = some f := by
  refine ⟨fun h => ?_, exec_of_undefinedCheck_eq_some⟩
  rcases exec_ends i s with ⟨-, t, he⟩ | ⟨f', hf', he⟩
  · cases he.symm.trans h
  · cases he.symm.trans h
    exact hf'

end

theorem exec_ne_refused (i : Instr) (s : State) (r : Refusal) : exec i s ≠ .refused r := by
  intro h
  rcases exec_ends i s with ⟨-, t, he⟩ | ⟨f, -, he⟩ <;> cases he.symm.trans h

/-- Settles O12: an execute step ends undefined exactly where its check finds a condition, and each of the three kinds
is found by the check of its own instructions. -/
theorem undefinedOutcomesAreTheThreeCases : Obligations.UndefinedOutcomesAreTheThreeCases := by
  refine fun i s => ⟨fun f => exec_eq_fault_iff.trans ⟨fun h => ?_, ?_⟩, exec_ne_refused i s⟩
  · cases i with
    | drw x y n =>
      obtain ⟨⟨hpos, hpast⟩, ⟨⟩⟩ := Option.ite_none_right_eq_some.mp h
      exact .inl ⟨rfl, x, y, n, rfl, hpos, hpast⟩
    | ldBVx x =>
      obtain ⟨hpast, ⟨⟩⟩ := Option.ite_none_right_eq_some.mp h
      exact .inr (.inl ⟨rfl, x, rfl, hpast⟩)
    | skp x | sknp x =>
      obtain ⟨hkey, ⟨⟩⟩ := Option.ite_none_right_eq_some.mp h
      exact .inr (.inr ⟨rfl, x, by simp, hkey⟩)
    | _ => simp [State.undefinedCheck] at h
  · rintro (⟨rfl, x, y, n, rfl, hcond⟩ | ⟨rfl, x, rfl, hcond⟩ | ⟨rfl, x, rfl | rfl, hcond⟩) <;> exact if_pos hcond

/-! ### Fatal execute steps (R69, R124) -/

/-- From a state whose report is not fatal, an execute step ends fatal exactly where its check finds a condition. -/
theorem exec_fatal_iff {i : Instr} {s : State} {k : FatalKind} (hok : s.outcome.isFatal = false) :
    (∃ t, exec i s = .next t ∧ t.outcome = .fatal k) ↔ s.execCheck i = some k := by
  refine ⟨fun ⟨t, ht, hfatal⟩ => ?_, fun h => ⟨_, exec_of_execCheck_eq_some h, rfl⟩⟩
  cases hcheck : s.execCheck i with
  | none =>
    have hsame : t.outcome.isFatal = s.outcome.isFatal := (exec_of_execCheck_eq_none hcheck).of_eq_next ht
    rw [hfatal, hok] at hsame
    cases hsame
  | some k' =>
    cases (exec_of_execCheck_eq_some hcheck).symm.trans ht
    cases hfatal
    rfl

/-- Settles O13: each kind of fatal condition is found by the check of its own instructions. -/
theorem fatalOutcomesHaveTheirCauses : Obligations.FatalOutcomesHaveTheirCauses := by
  refine fun i s k hok => (exec_fatal_iff hok).trans ⟨fun h => ?_, ?_⟩
  · cases i with
    | call nnn =>
      obtain ⟨hfull, ⟨⟩⟩ := Option.ite_none_right_eq_some.mp h
      exact .inl ⟨rfl, ⟨nnn, rfl⟩, hfull⟩
    | ret =>
      obtain ⟨hempty, ⟨⟩⟩ := Option.ite_none_right_eq_some.mp h
      exact .inr (.inl ⟨rfl, rfl, hempty⟩)
    | stRegs x | ldRegs x =>
      obtain ⟨hpast, ⟨⟩⟩ := Option.ite_none_right_eq_some.mp h
      exact .inr (.inr ⟨rfl, x, by simp, hpast⟩)
    | _ => simp [State.execCheck] at h
  · rintro (⟨rfl, ⟨nnn, rfl⟩, hcond⟩ | ⟨rfl, rfl, hcond⟩ | ⟨rfl, x, rfl | rfl, hcond⟩) <;> exact if_pos hcond

/-! ### The frames of the host calls -/

theorem keepsAllBut_keys {s t : State} (h : t = { s with keys := t.keys }) : KeepsAllBut [.keys] s t := by
  intro p hp
  rw [h]
  cases p with
  | keys => simp at hp
  | mem | regs | stack => exact fun _ => rfl
  | fb => exact fun _ _ => rfl
  | _ => rfl

theorem keepsAllBut_romSize (s : State) (l : Nat) : KeepsAllBut [.romSize] s { s with romSize := l } := by
  intro p hp
  cases p with
  | romSize => simp at hp
  | mem | regs | stack | keys => exact fun _ => rfl
  | fb => exact fun _ _ => rfl
  | _ => rfl

theorem keepsAllBut_setKey (s : State) (k : Nat) (p : Bool) : KeepsAllBut [.keys] s (s.setKey k p).1 :=
  keepsAllBut_keys (setKey_eq s k p)

theorem keepsAllBut_setAllKeys (s : State) (flags : Vector Bool 16) : KeepsAllBut [.keys] s (s.setAllKeys flags) :=
  keepsAllBut_keys (setAllKeys_eq s flags)

theorem keepsAllBut_loadRom (s : State) (rom : List Byte) : KeepsAllBut [.mem, .romSize] s (s.loadRom rom).1 := by
  by_cases hle : rom.length ≤ 3584
  · rw [loadRom_of_le s rom hle]
    exact (keepsAllBut_writeBytes s _ _).comp (keepsAllBut_romSize _ _)
  · rw [loadRom_of_gt s rom (by omega)]
    exact KeepsAllBut.refl _ s

/-! ### The keypad (R135) -/

/-- Settles O56: set key writes the one flag it names, and its bound decides the signal. -/
theorem setKeyWritesOneKey : Obligations.SetKeyWritesOneKey := by
  refine fun s k p => ⟨fun hk => ⟨?_, ?_, fun j hj => ?_, keepsAllBut_setKey s k p⟩, fun hk => dif_neg hk.not_gt⟩
  · rw [State.setKey, dif_pos hk]
  · rw [key_setKey, if_pos ⟨rfl, hk⟩]
  · rw [key_setKey, if_neg fun hsame => hj hsame.1]

/-- Settles O57: the pass is the first 16 of its set-key calls, which write the keys below 16 and only the keypad. -/
theorem pollingPassSetsEveryKey : Obligations.PollingPassSetsEveryKey := by
  refine fun s flags => ⟨fun k hk => ?_, keepsAllBut_setAllKeys s flags⟩
  calc (s.setAllKeys flags).key k
    _ = if k < 16 then flags.getD k false else s.key k := key_setKeysIn_range s flags 16 le_rfl k
    _ = flags[k] := by simp [hk, Vector.getD]

/-! ### The redraw and sound flags (R136, R138) -/

/-- A call of the host other than consume redraw leaves a set `redraw` set. -/
theorem hostCall_keeps_redraw {c : HostCall} {s t : State} (h : hostCall c s = .next t) (hc : c ≠ .consumeRedraw)
    (hset : s.redraw = true) : t.redraw = true := by
  cases c with
  | runCycle => exact (step_leavesHost h).redraw hset
  | setKey k p => cases h; exact Eq.trans (keepsAllBut_setKey s k p .redraw (by decide)) hset
  | consumeRedraw => exact absurd rfl hc
  | readPixel | readSound => cases h; exact hset
  | loadRom rom => cases h; exact Eq.trans (keepsAllBut_loadRom s rom .redraw (by decide)) hset

/-- Settles O58: consume redraw is one write of `redraw`, and every other call leaves a set flag set. -/
theorem redrawAndSoundFlags : Obligations.RedrawAndSoundFlags := by
  refine fun s => ⟨rfl, rfl, keepsAllBut_setRedraw s false, fun c t h hset hclear => ?_, decide_eq_true_iff, rfl⟩
  by_contra hc
  cases hclear.symm.trans (hostCall_keeps_redraw h hc hset)

/-! ### Reading a pixel (R137) -/

/-- Settles O59: the signal tells a column and row inside the framebuffer from one outside, and the call is a read. -/
theorem readPixelInAndOutOfRange : Obligations.ReadPixelInAndOutOfRange := by
  refine fun s x y => ⟨fun c r hx hy hc hr => ?_, fun hout => if_neg (by omega), rfl⟩
  subst hx hy
  exact if_pos (by omega)

end Sys2Proof.Machine
end

section
/-! Proofs about the ROM load and the ends of a run (spec/70_reset_and_hazards.md R143, R152): what a load writes, a
run's end as the boundary of its first cycle that is an end, and the cycle of a jump to itself. -/

namespace Sys2Proof.Machine

/-! ### Loading a ROM (R143) -/

/-- A ROM that fits leaves the memory of the block written at 0x200; L is no part of memory. -/
theorem loadRom_readByte_of_le (s : State) {rom : List Byte} (h : rom.length ≤ 3584) (a : Nat) :
    (s.loadRom rom).1.readByte a = (s.writeBytes 0x200 rom).readByte a := by
  rw [loadRom_of_le s rom h, readByte_of_romSize]

/-- Settles O60: a ROM of at most 3584 bytes is one block of writes from 0x200 that ends inside memory. -/
theorem loadRomCopiesAndRecordsSize : Obligations.LoadRomCopiesAndRecordsSize := by
  intro s rom hinv
  obtain ⟨-, -, -, -, hmem⟩ := hinv
  refine ⟨fun hle => ?_, loadRom_of_gt s rom⟩
  have hfit : 0x200 + rom.length ≤ 4096 := by omega
  refine ⟨?_, ?_, fun k hk => ?_, fun a ha => ?_, keepsAllBut_loadRom s rom⟩
  · rw [loadRom_of_le s rom hle]
  · rw [loadRom_of_le s rom hle]
  · rw [loadRom_readByte_of_le s hle, readByte_writeBytes_add hmem hfit hk, List.getD_eq_getElem _ _ hk]
  · rw [loadRom_readByte_of_le s hle, readByte_writeBytes_of_outside hmem hfit ha]

/-! ### The first end of a run (R152) -/

/-- A run ends at the first call that ends it, whatever calls follow. -/
theorem runCalls_cons_of_ended {c : HostCall} {s : State} (h : ∀ t, runCall c s ≠ .running t) (cs : List HostCall) :
    runCalls (c :: cs) s = runCall c s := by
  rw [runCalls]
  split
  · rename_i t ht
    exact absurd ht (h t)
  all_goals exact Eq.symm ‹_›

/-- A run has an end exactly when it goes on up to some cycle and that cycle's boundary is the end. -/
theorem runCalls_eq_ended_iff {cs : List HostCall} {s : State} {r : RunStatus} (hr : ∀ t, r ≠ .running t) :
    runCalls cs s = r ↔
      ∃ pre post u, cs = pre ++ .runCycle :: post ∧ runCalls pre s = .running u ∧ cycleBoundary (step u) = r := by
  constructor
  · rintro rfl
    obtain ⟨pre, post, u, hcs, hpre, hend⟩ := runCalls_ended hr
    exact ⟨pre, post, u, hcs, hpre, hend.symm⟩
  · rintro ⟨pre, post, u, rfl, hpre, rfl⟩
    exact (runCalls_append hpre _).trans (runCalls_cons_of_ended (c := .runCycle) hr post)

/-! ### The idle loop (R77, R152) -/

theorem atSelfJump_iff {s : State} :
    s.atSelfJump = true ↔
      ∃ nnn, decode s.fetchWord = .ok (.jp nnn) ∧ s.pc.toNat + 1 ≤ 4095 ∧ addrOf nnn = s.pc := by
  unfold State.atSelfJump
  split
  · rename_i nnn hd
    simp [hd]
  · rename_i hno
    simpa using fun nnn hd => absurd hd (hno nnn)

/-- The state after one cycle of the idle loop: the jump takes back the advance, and the timers tick. -/
def State.afterIdle (s : State) : State := (s.advance.setPc s.pc).tick

theorem step_of_atSelfJump {s : State} (hjump : s.atSelfJump = true)
    (hrom : s.config.romEndCheck = true → s.pc.toNat < 0x200 + s.romSize) : step s = .next s.afterIdle := by
  obtain ⟨nnn, hd, hbound, htarget⟩ := atSelfJump_iff.mp hjump
  rw [step_of_decode (fetchCheck_eq_none.mpr ⟨hbound, hrom⟩) hd, State.afterIdle, ← htarget]
  rfl

theorem keepsAllBut_afterIdle (s : State) : KeepsAllBut [.dt, .st, .outcome] s s.afterIdle := by
  have hframe : KeepsAllBut [.pc, .dt, .st, .outcome] s s.afterIdle :=
    (((keepsAllBut_advance s).comp (keepsAllBut_setPc _ _)).comp (keepsAllBut_tick _)).mono (by decide)
  intro p hp
  by_cases hpc : p = .pc
  · subst hpc
    rfl
  · exact hframe p (by simpa [hpc] using hp)

/-- The word at pc is read from memory and pc alone, which the idle loop keeps. -/
theorem atSelfJump_afterIdle (s : State) : s.afterIdle.atSelfJump = s.atSelfJump := rfl

/-- Settles O25: each end of a run is the boundary of its first cycle with that end, and a cycle at a self-jump jumps
back to where it was fetched. -/
theorem selfJumpChangesOnlyTheTimers : Obligations.SelfJumpChangesOnlyTheTimers := by
  refine ⟨fun cs s t => ?_, fun cs s t k => ?_, fun cs s f => ?_, fun s hgood hrom => ?_⟩
  · rw [runCalls_eq_ended_iff (by simp)]
    simp only [cycleBoundary_eq_good]
  · rw [runCalls_eq_ended_iff (by simp)]
    simp only [cycleBoundary_eq_fatal]
  · rw [runCalls_eq_ended_iff (by simp)]
    simp only [cycleBoundary_eq_undefined]
  · obtain ⟨-, hjump⟩ := hgood
    exact ⟨_, step_of_atSelfJump hjump hrom, keepsAllBut_afterIdle s, rfl, toNat_tickDown s.dt, toNat_tickDown s.st,
      rfl, (atSelfJump_afterIdle s).trans hjump⟩

end Sys2Proof.Machine
end
